-- ==== Sys2Proof/Word.lean ====
section
/-! DEFINITION. The word types of HUEC (spec/00_scope.md R7, R8): bytes, 16-bit samples, 32-bit registers, and the colour
triple. Bit 0 is the least significant bit everywhere (R7), which is the numbering of `BitVec`. -/

namespace Sys2Proof

/-- `u8` of R8: one byte of memory, one colour channel. -/
abbrev Byte := BitVec 8

/-- `u16` of R8: a DepthSample, and the 16-bit operand V16 of a format H command word (R83). -/
abbrev Sample := BitVec 16

/-- `u32` of R8: a register of the window (R23), a command word (R80), a byte address of the memory port (R60). -/
abbrev Word := BitVec 32

/-- `Triple` of R8: the record (R, G, B) of three `u8`, in the order of the document's tables. -/
structure Triple where
  r : Byte
  g : Byte
  b : Byte
  deriving DecidableEq, Repr

/-- Black, (0, 0, 0): the code point of the sentinel level 0 (R14, R100). -/
abbrev Triple.black : Triple := ⟨0x00#8, 0x00#8, 0x00#8⟩

end Sys2Proof
end

