-- ==== Sys2Proof/Syntax.lean ====
section
/-! DEFINITION. The nine operations of HUEC (spec/30_encoding.md R86), one constructor per row of spec/opcode_table.json. -/

namespace Sys2Proof

/-- One HUEC operation with its command-word operands. Format H operations carry V16 (R83), format T operations carry R,
G and B (R84), format N operations take their operands from registers (R85). -/
inductive Instr where
  /-- VENC, value encode (R102): the level argument, any `u16`. -/
  | venc (v : Sample)
  /-- VDEC, value decode (R104): a triple. -/
  | vdec (r g b : Byte)
  /-- CFG, configure (R127). -/
  | cfg
  /-- SFWD, scale forward (R135): a depth sample. -/
  | sfwd (d : Sample)
  /-- SINV, scale inverse (R137): a level argument, any `u16`. -/
  | sinv (l : Sample)
  /-- PENC, pixel encode (R151): a depth sample. -/
  | penc (d : Sample)
  /-- PDEC, pixel decode (R153): a triple. -/
  | pdec (r g b : Byte)
  /-- IENC, image encode (R155). -/
  | ienc
  /-- IDEC, image decode (R161). -/
  | idec
  deriving DecidableEq, Repr

end Sys2Proof
end

