-- ==== Sys2Proof/WellFormed.lean ====
section
/-! DEFINITION. Which operations are well formed: the operand ranges of the assembler syntax of spec/30_encoding.md R89.
An `AsmOp` is a statement as a programmer writes it, with numbers of any size; the assembler refuses an operand outside
the stated range. An `Instr` holds operands of the right widths, so its statement is always in range
(`Laws.instr_wellFormed`). -/

namespace Sys2Proof

/-- An operation statement of R89 as written: a mnemonic and its numbers, not yet checked. -/
inductive AsmOp where
  | venc (v : Nat)
  | vdec (r g b : Nat)
  | cfg
  | sfwd (d : Nat)
  | sinv (l : Nat)
  | penc (d : Nat)
  | pdec (r g b : Nat)
  | ienc
  | idec
  deriving DecidableEq, Repr

/-- The range of a format H operand in R89: 0 <= v <= 65535. -/
def inU16 (v : Nat) : Bool := decide (v ≤ 65535)

/-- The range of a format T operand in R89: each 0..255. -/
def inU8 (c : Nat) : Bool := decide (c ≤ 255)

/-- R89: the assembler refuses an operand outside the stated range. -/
def AsmOp.wellFormed : AsmOp → Bool
  | .venc v     => inU16 v
  | .vdec r g b => inU8 r && inU8 g && inU8 b
  | .cfg        => true
  | .sfwd d     => inU16 d
  | .sinv l     => inU16 l
  | .penc d     => inU16 d
  | .pdec r g b => inU8 r && inU8 g && inU8 b
  | .ienc       => true
  | .idec       => true

/-- The statement that writes an operation down. -/
def Instr.toAsm : Instr → AsmOp
  | .venc v     => .venc v.toNat
  | .vdec r g b => .vdec r.toNat g.toNat b.toNat
  | .cfg        => .cfg
  | .sfwd d     => .sfwd d.toNat
  | .sinv l     => .sinv l.toNat
  | .penc d     => .penc d.toNat
  | .pdec r g b => .pdec r.toNat g.toNat b.toNat
  | .ienc       => .ienc
  | .idec       => .idec

/-- An operation is well formed when its operands are in the ranges of R89. -/
def Instr.wellFormed (i : Instr) : Bool := i.toAsm.wellFormed

end Sys2Proof
end

