-- ==== Sys2Proof/Decode.lean ====
section
/-! DEFINITION. The command word of HUEC (spec/30_encoding.md): its fields (R81, R83, R84), the total decoder (R82), the
encoder (R89), and the opcode table with mask and match (R86). -/

namespace Sys2Proof

/-- Why a command word is illegal (R87). Either way the machine raises IllegalCommand (R185). -/
inductive DecodeReject where
  /-- The opcode is none of the nine assigned ones. -/
  | unassignedOpcode (op : Byte)
  /-- An assigned opcode with a non-zero bit in a must-be-zero field. -/
  | reservedBitsSet (op : Byte)
  deriving DecidableEq, Repr

/-- OP = w[7:0] (R81). -/
def fieldOp (w : Word) : Byte := w.extractLsb' 0 8

/-- V16 = w[23:8], taken as it stands (R83). -/
def fieldV16 (w : Word) : Sample := w.extractLsb' 8 16

/-- R = w[15:8] (R84). -/
def fieldR (w : Word) : Byte := w.extractLsb' 8 8

/-- G = w[23:16] (R84). -/
def fieldG (w : Word) : Byte := w.extractLsb' 16 8

/-- w[31:24]: B in format T (R84), must be zero in format H (R81). -/
def fieldB (w : Word) : Byte := w.extractLsb' 24 8

/-- PAY = w[31:8]: must be zero in format N (R81). -/
def fieldPay (w : Word) : BitVec 24 := w.extractLsb' 8 24

/-- Format N: no operand, w[31:8] must be zero. -/
def decodeN (w : Word) (i : Instr) : Except DecodeReject Instr :=
  if fieldPay w = 0#24 then .ok i else .error (.reservedBitsSet (fieldOp w))

/-- Format H: one 16-bit operand, w[31:24] must be zero. -/
def decodeH (w : Word) (mk : Sample → Instr) : Except DecodeReject Instr :=
  if fieldB w = 0x00#8 then .ok (mk (fieldV16 w)) else .error (.reservedBitsSet (fieldOp w))

/-- Format T: one triple, every payload is legal. -/
def decodeT (w : Word) (mk : Byte → Byte → Byte → Instr) : Except DecodeReject Instr :=
  .ok (mk (fieldR w) (fieldG w) (fieldB w))

/-- R82: decoding a command word, total on all 2^32 values. -/
def decode (w : Word) : Except DecodeReject Instr :=
  if fieldOp w = 0x01#8 then decodeH w .venc
  else if fieldOp w = 0x02#8 then decodeT w .vdec
  else if fieldOp w = 0x10#8 then decodeN w .cfg
  else if fieldOp w = 0x11#8 then decodeH w .sfwd
  else if fieldOp w = 0x12#8 then decodeH w .sinv
  else if fieldOp w = 0x20#8 then decodeH w .penc
  else if fieldOp w = 0x21#8 then decodeT w .pdec
  else if fieldOp w = 0x22#8 then decodeN w .ienc
  else if fieldOp w = 0x23#8 then decodeN w .idec
  else .error (.unassignedOpcode (fieldOp w))

/-- A format N word: the opcode below a zero payload. -/
def encodeN (op : Byte) : Word := 0#24 ++ op

/-- A format H word: `(v << 8) | OP` (R89). -/
def encodeH (op : Byte) (v : Sample) : Word := 0x00#8 ++ v ++ op

/-- A format T word: `(b << 24) | (g << 16) | (r << 8) | OP` (R89). -/
def encodeT (op r g b : Byte) : Word := b ++ g ++ r ++ op

/-- The command word of an operation (R86, R89). -/
def encode : Instr → Word
  | .venc v     => encodeH 0x01#8 v
  | .vdec r g b => encodeT 0x02#8 r g b
  | .cfg        => encodeN 0x10#8
  | .sfwd d     => encodeH 0x11#8 d
  | .sinv l     => encodeH 0x12#8 l
  | .penc d     => encodeH 0x20#8 d
  | .pdec r g b => encodeT 0x21#8 r g b
  | .ienc       => encodeN 0x22#8
  | .idec       => encodeN 0x23#8

/-- A row of the opcode table of R86: `w` encodes the operation exactly when `w & mask = pattern`. -/
structure OpRow where
  mnemonic : String
  mask     : Word
  pattern  : Word
  deriving DecidableEq, Repr

/-- The nine rows of R86, in its order. -/
def opcodeTable : List OpRow :=
  [ ⟨"VENC", 0xFF0000FF#32, 0x00000001#32⟩,
    ⟨"VDEC", 0x000000FF#32, 0x00000002#32⟩,
    ⟨"CFG",  0xFFFFFFFF#32, 0x00000010#32⟩,
    ⟨"SFWD", 0xFF0000FF#32, 0x00000011#32⟩,
    ⟨"SINV", 0xFF0000FF#32, 0x00000012#32⟩,
    ⟨"PENC", 0xFF0000FF#32, 0x00000020#32⟩,
    ⟨"PDEC", 0x000000FF#32, 0x00000021#32⟩,
    ⟨"IENC", 0xFFFFFFFF#32, 0x00000022#32⟩,
    ⟨"IDEC", 0xFFFFFFFF#32, 0x00000023#32⟩ ]

/-- Whether a word is an instance of a row (R86). -/
def OpRow.accepts (row : OpRow) (w : Word) : Bool := w &&& row.mask == row.pattern

/-- The mnemonic of an operation, as R86 spells it. -/
def Instr.mnemonic : Instr → String
  | .venc _     => "VENC"
  | .vdec _ _ _ => "VDEC"
  | .cfg        => "CFG"
  | .sfwd _     => "SFWD"
  | .sinv _     => "SINV"
  | .penc _     => "PENC"
  | .pdec _ _ _ => "PDEC"
  | .ienc       => "IENC"
  | .idec       => "IDEC"

/-- The operation the decoder reads from an instruction of `nbits` bits whose bits are `w`, numbered as
spec/opcode_table.json numbers them. Every HUEC command is one 32-bit word (R80), so a longer one is none; the bits
above `nbits` are zero. -/
def decodeTableWord (nbits w : Nat) : Option Instr :=
  if nbits ≤ 32 then
    match decode (BitVec.ofNat 32 (w % 2 ^ nbits)) with
    | .ok i    => some i
    | .error _ => none
  else none

end Sys2Proof
end

