-- ==== Sys2Proof/Config.lean ====
section
/-! DEFINITION. What is fixed for the machine: the constants of spec/00_scope.md R6, the two OPEN platform parameters
(HUEC_BASE and MemAdmit) as plain data, and the one free value of the model (the bytes a write-phase bus error leaves). -/

namespace Sys2Proof

/-- The two kinds of access of the admission predicate (R61). -/
inductive AccessKind where
  | read
  | write
  deriving DecidableEq, Repr

/-- A range of memory-port byte addresses that the platform admits, with the kinds of access it admits there. -/
structure Region where
  base     : Nat
  size     : Nat
  canRead  : Bool
  canWrite : Bool
  deriving DecidableEq, Repr

/-- The OPEN parameters of R6, D17 and D27 as plain data: where the platform puts the register window (HUEC_BASE), and
which bytes of the memory port it admits (MemAdmit), as a finite list of regions (log 15). `State` carries the value and
no step changes it, so a statement about every state holds for every platform of this form. -/
structure Platform where
  /-- HUEC_BASE. DESIGN CHOICE (log 16): 32 bits wide; the spec gives the host's address space no width (R42, D17). -/
  hueBase : Word
  regions : List Region
  deriving DecidableEq, Repr

namespace Config

/-- LEVEL_MAX of R6: the highest level of the Value Codec, shared by the Range Scaler (R123). -/
def levelMax : Nat := 1530

/-- LUT_SIZE of R6. -/
def lutSize : Nat := 1531

/-- DARK_SUM of R6: a triple whose channels sum to at most this decodes to level 0 (R101). -/
def darkSum : Nat := 128

/-- EPS of R122: 1/1000000000 exactly. -/
def eps : Rat := mkRat 1 1000000000

/-- AW of R6: the memory port has 2^32 byte addresses (R42, R60). -/
def addrSpace : Nat := 4294967296

/-- The size of the register window in bytes (R23). -/
def windowBytes : Nat := 0x34

/-- DESIGN CHOICE (log 1): the platform of `State.reset`: the window at 0x80000000, every other byte of the memory port
admitted for reads and writes. The spec leaves both parameters OPEN. -/
def platform : Platform :=
  { hueBase := 0x80000000#32, regions := [{ base := 0, size := addrSpace, canRead := true, canWrite := true }] }

/-- The free value of R64 and I8 (log 4): `freeByte n a` is the byte that the `n`-th write-phase bus error leaves at the
admitted destination address `a`. It has no body: nothing constrains it. -/
opaque freeByte : Nat → Nat → Byte

end Config

end Sys2Proof
end

