-- ==== Sys2Proof/Machine/State.lean ====
section
/-! DEFINITION. The state of HUEC as plain data (spec/10_state.md R22, R23, R37, R39), the platform memory and the host's
pending actions around it (R13, R22), and the state after Reset (R43, R44, R201). -/

namespace Sys2Proof.Machine

/-- The six synchronous errors of R180. -/
inductive ErrorKind where
  | invalidInput
  | outOfRangeLevel
  | badConfig
  | noConfig
  | illegalCommand
  | busError
  deriving DecidableEq, Repr

/-- The thirteen registers of the window (R23). -/
inductive Reg where
  | cmd | status | result | cfgMinM | cfgMaxM | cfgScale | cfgMode
  | srcAddr | srcDim | srcFmt | dstAddr | dstDim | dstFmt
  deriving DecidableEq, Repr

/-- The width of a host access to the register window. Only whole words are defined (R34). -/
inductive AccessSize where
  | byte
  | half
  | word
  deriving DecidableEq, Repr

/-- The external events (R13), in the order the host issues them (R21, R72), and the host's own stores to the platform
memory between operations (R73, R205; log 6). -/
inductive HostAction where
  /-- HostWrite(off, v): a write to the register window at byte offset `off`. -/
  | write (size : AccessSize) (off : Word) (v : Word)
  /-- HostRead(off): a read of the register window at byte offset `off`. -/
  | read (size : AccessSize) (off : Word)
  /-- The reset input (R200). -/
  | reset
  /-- A store of one byte by the host to the platform memory (R73). -/
  | memStore (addr : Word) (b : Byte)
  deriving DecidableEq, Repr

/-- The active configuration ACT of R37, with exact rational bounds. -/
structure Act where
  minU    : Rat
  maxU    : Rat
  rangeU  : Rat
  inverse : Bool
  deriving DecidableEq, Repr

/-- The lookup table of R39: entry `i` is `LUT[i]`; a table built by CFG has 1531 entries. -/
abbrev Lut := List Triple

/-- The platform memory: address and byte pairs, addresses strictly rising, no entry equal to what an unlisted address
reads as (`Memory.wf`, Machine/Ops.lean). -/
abbrev Memory := List Host.Cell

/-- Why a step can stop with a fault. -/
inductive Fault where
  /-- An operation that found STATUS.VALID = 1 was about to read ACT or LUT while it holds no value. Raised by SFWD,
  SINV, PENC, PDEC, IENC and IDEC, only in states outside `State.Inv`, which no run reaches (R44, R45, I6). Safe. -/
  | contextUnspecified
  deriving DecidableEq, Repr

/-- Why a step can be refused. -/
inductive Refusal where
  /-- An operation without a meaning in this model. No arm of `exec` answers it. Safe. -/
  | notModelled (mnemonic : String)
  /-- A host access to the register window that is narrower than 32 bits or misaligned: "not defined by this spec: a
  model refuses them" (R34, I11). Raised by the host's access, by no operation. Safe. -/
  | registerAccessUndefined
  deriving DecidableEq, Repr

/-- The machine: HUEC's own state (R22), the platform it is connected to (R22: parameters and memory), and three fields
of the model's own (`host`, `readData`, `draws`; logs 5, 7, 4). CMD is not stored (R26). -/
structure State where
  /-- STATUS (R24). -/
  status   : Word
  /-- RESULT (R25). -/
  result   : Word
  /-- CFG_MIN_M, staging (R27). -/
  cfgMinM  : Word
  /-- CFG_MAX_M, staging (R27). -/
  cfgMaxM  : Word
  /-- CFG_SCALE, staging (R27). -/
  cfgScale : Word
  /-- CFG_MODE, staging (R28). -/
  cfgMode  : Word
  /-- SRC_ADDR (R29). -/
  srcAddr  : Word
  /-- SRC_DIM (R30). -/
  srcDim   : Word
  /-- SRC_FMT (R31). -/
  srcFmt   : Word
  /-- DST_ADDR (R29). -/
  dstAddr  : Word
  /-- DST_DIM (R30, R33). -/
  dstDim   : Word
  /-- DST_FMT (R31, R33). -/
  dstFmt   : Word
  /-- ACT (R37); no value after Reset and after a failed CFG (R44, R46, I6). -/
  act      : Option Act
  /-- LUT (R39); no value after Reset and after a failed CFG (R44, R46, I6). -/
  lut      : Option Lut
  /-- The contents of the memory port's address space (R42, R60). -/
  mem      : Memory
  /-- HUEC_BASE and MemAdmit (R6, R22, R61): fixed, never written. -/
  platform : Platform
  /-- The host's pending actions, the next one first (R13, R21). -/
  host     : List HostAction
  /-- The data the host's latest register read returned. -/
  readData : Word
  /-- How many free values a write-phase bus error has drawn so far. -/
  draws    : Nat
  deriving DecidableEq, Repr

/-- The state after Reset on a given platform with given memory contents (R43, R44, R201): all thirteen registers zero,
ACT and LUT without a value, memory as the platform has it. -/
def State.resetOn (p : Platform) (m : Memory) : State :=
  { status := 0x00000000#32, result := 0x00000000#32,
    cfgMinM := 0x00000000#32, cfgMaxM := 0x00000000#32, cfgScale := 0x00000000#32, cfgMode := 0x00000000#32,
    srcAddr := 0x00000000#32, srcDim := 0x00000000#32, srcFmt := 0x00000000#32,
    dstAddr := 0x00000000#32, dstDim := 0x00000000#32, dstFmt := 0x00000000#32,
    act := none, lut := none,
    mem := m, platform := p, host := [], readData := 0x00000000#32, draws := 0 }

/-- The machine right after Reset, on the platform of `Config.platform` (log 1), with no memory byte listed (log 2), no
host action pending (log 5), and the model's own fields at zero (logs 4, 7). -/
def State.reset : State := State.resetOn Config.platform []

end Sys2Proof.Machine
end

