-- ==== Sys2Proof/Machine/Flags.lean ====
section
/-! DEFINITION. The fields of STATUS (spec/10_state.md R24, R36, R47) and the error codes (spec/60_exceptions.md R180).
HUEC has no arithmetic condition codes: the STATUS fields are its only flags (R47). -/

namespace Sys2Proof.Machine

/-- One bit of a register word set to a given value. -/
def setBit (w : Word) (i : Nat) (b : Bool) : Word :=
  if b then w ||| (1#32 <<< i) else w &&& ~~~(1#32 <<< i)

/-- STATUS.VALID, bit 0 (R24). -/
def statusValid (w : Word) : Bool := w.getLsbD 0

/-- STATUS.EPS_SUB, bit 1 (R24). -/
def statusEpsSub (w : Word) : Bool := w.getLsbD 1

/-- STATUS.LAST, bits 19:16 (R24). -/
def statusLast (w : Word) : BitVec 4 := w.extractLsb' 16 4

/-- The code of an error (R180). -/
def errorCode : ErrorKind → Nat
  | .invalidInput    => 1
  | .outOfRangeLevel => 2
  | .badConfig       => 3
  | .noConfig        => 4
  | .illegalCommand  => 5
  | .busError        => 6

/-- The sticky bit of error code c is STATUS bit 3 + c (R24, R180). -/
def stickyBit (e : ErrorKind) : Nat := 3 + errorCode e

/-- A sticky error bit of STATUS. -/
def statusSticky (w : Word) (e : ErrorKind) : Bool := w.getLsbD (stickyBit e)

/-- The sticky bits, STATUS[9:4]: the only bits a host write to STATUS can change (R36). -/
def stickyMask : Word := 0x000003F0#32

/-- The reserved bits of STATUS, [3:2], [15:10] and [31:20]: they read 0 (R24). -/
def statusReservedMask : Word := 0xFFF0FC0C#32

/-- STATUS with VALID written. -/
def setValid (w : Word) (b : Bool) : Word := setBit w 0 b

/-- STATUS with EPS_SUB written. -/
def setEpsSub (w : Word) (b : Bool) : Word := setBit w 1 b

/-- STATUS with a result code in LAST. -/
def setLast (w : Word) (code : Nat) : Word :=
  (w &&& 0xFFF0FFFF#32) ||| ((BitVec.ofNat 32 code &&& 0x0000000F#32) <<< 16)

/-- R36: a host write of `v` to STATUS clears the sticky bits written with 1 and changes nothing else. -/
def statusHostWrite (w v : Word) : Word := w &&& ~~~(v &&& stickyMask)

end Sys2Proof.Machine
end

