-- ==== Sys2Proof/Machine/Ops.lean ====
section
/-! DEFINITION. The shared operations: bytes of memory and the memory port (spec/20_memory.md R60 to R65), the error report
and the success report (spec/60_exceptions.md R190, R191), and reading the active configuration (spec/10_state.md R45). -/

namespace Sys2Proof.Machine

/-! ### Memory -/

/-- What an address nothing has written reads as. DESIGN CHOICE (log 2): the spec gives memory no contents. -/
def Memory.unlisted : Byte := 0x00#8

/-- The byte `mem[a]` of R62. -/
def Memory.read : Memory → Nat → Byte
  | [], _ => Memory.unlisted
  | (k, v) :: m, a => if k = a then v else Memory.read m a

/-- The cells that say that address `a` holds `b`: none if that is what an unlisted address reads as. -/
def Memory.cell (a : Nat) (b : Byte) : Memory :=
  if b = Memory.unlisted then [] else [(a, b)]

/-- `mem[a] <- b` of R63, keeping the canonical form. -/
def Memory.write : Memory → Nat → Byte → Memory
  | [], a, b => Memory.cell a b
  | (k, v) :: m, a, b =>
    if a < k then Memory.cell a b ++ (k, v) :: m
    else if a = k then Memory.cell a b ++ m
    else (k, v) :: Memory.write m a b

/-- The canonical form from address `lo` on: addresses strictly rising and below 2^32, no entry an unlisted address
would read as anyway. -/
def Memory.wfFrom (lo : Nat) : Memory → Bool
  | [] => true
  | (k, v) :: m => decide (lo ≤ k) && decide (k < Config.addrSpace) && !(v == Memory.unlisted) && Memory.wfFrom (k + 1) m

/-- The canonical form of memory. -/
def Memory.wf (m : Memory) : Bool := Memory.wfFrom 0 m

/-! ### The memory port -/

/-- Whether an address lies in HUEC's own register window. -/
def inWindow (p : Platform) (a : Nat) : Bool :=
  decide (p.hueBase.toNat ≤ a) && decide (a < p.hueBase.toNat + Config.windowBytes)

/-- Whether a region admits an access of kind `k` to the byte at `a`. -/
def Region.admits (g : Region) (a : Nat) (k : AccessKind) : Bool :=
  decide (g.base ≤ a) && decide (a < g.base + g.size) &&
    (match k with
     | .read  => g.canRead
     | .write => g.canWrite)

/-- MemAdmit(addr, kind) of R61: what the platform admits, and never a byte of HUEC's own register window. -/
def memAdmit (p : Platform) (a : Nat) (k : AccessKind) : Bool :=
  decide (a < Config.addrSpace) && !inWindow p a && p.regions.any (fun g => Region.admits g a k)

/-- Every byte of `a .. a+n-1` is admitted. -/
def admitsAll (p : Platform) (k : AccessKind) : Nat → Nat → Bool
  | _, 0 => true
  | a, n + 1 => memAdmit p a k && admitsAll p k (a + 1) n

/-- The unsigned integer of the `n` bytes at `a`, the byte at `a` least significant (R62, R65). -/
def loadLE (m : Memory) : Nat → Nat → Nat
  | _, 0 => 0
  | a, n + 1 => (Memory.read m a).toNat + 256 * loadLE m (a + 1) n

/-- The low `8n` bits of `v` stored at `a .. a+n-1`, least significant byte first (R63, R65). -/
def storeLE : Memory → Nat → Nat → Nat → Memory
  | m, _, 0, _ => m
  | m, a, n + 1, v => storeLE (Memory.write m a (BitVec.ofNat 8 v)) (a + 1) n (v / 256)

/-- MemRead(addr, n) of R62; `none` is a bus error. -/
def memRead (p : Platform) (m : Memory) (a n : Nat) : Option Nat :=
  if admitsAll p .read a n then some (loadLE m a n) else none

/-- MemWrite(addr, n, v) of R63; `none` is a bus error, and then no byte of the access is written. -/
def memWrite (p : Platform) (m : Memory) (a n v : Nat) : Option Memory :=
  if admitsAll p .write a n then some (storeLE m a n v) else none

/-- R64, I8: every admitted byte of `a .. a+n-1` takes a free value; a byte that is not admitted is not written. -/
def scramble (p : Platform) (draw : Nat) : Memory → Nat → Nat → Memory
  | m, _, 0 => m
  | m, a, n + 1 =>
    scramble p draw (if memAdmit p a .write then Memory.write m a (Config.freeByte draw a) else m) (a + 1) n

/-! ### Reports. HUEC has no trap and no trap return (R12, R192): an error is a report in STATUS, and the machine goes on. -/

/-- `raise e`, the error report of R190: the sticky bit of `e` is set and LAST takes its code. Nothing else changes. -/
def raiseError (e : ErrorKind) (s : State) : State :=
  { s with status := setLast (setBit s.status (stickyBit e) true) (errorCode e) }

/-- The success report of R191: LAST <- 0, the sticky bits as they were. -/
def reportOk (s : State) : State :=
  { s with status := setLast s.status 0 }

/-- RESULT <- v (R25). -/
def setResult (v : Word) (s : State) : State :=
  { s with result := v }

/-! ### The active configuration -/

/-- Runs an operation that needs a valid configuration (R45, R184): NoConfig while STATUS.VALID = 0, else the operation
with the value of ACT. -/
def withAct (s : State) (k : Act → Host.Outcome State Fault Refusal) : Host.Outcome State Fault Refusal :=
  if statusValid s.status then
    match s.act with
    | some act => k act
    | none     => .fault .contextUnspecified
  else .next (raiseError .noConfig s)

/-- Reads the table (R39), for an operation that has found STATUS.VALID = 1. -/
def withLut (s : State) (k : Lut → Host.Outcome State Fault Refusal) : Host.Outcome State Fault Refusal :=
  match s.lut with
  | some lut => k lut
  | none     => .fault .contextUnspecified

/-- `LUT[l]` (R10, R150). Every index the scaler gives is in 0..1530 (R134), so the default is never read (log 10). -/
def lutEntry (lut : Lut) (l : Nat) : Triple := lut.getD l Triple.black

end Sys2Proof.Machine
end

