-- ==== Sys2Proof/Machine/Operands.lean ====
section
/-! DEFINITION. The operand forms: triples and scalars in RESULT (spec/10_state.md R25), the image descriptors (R29 to R33),
and an image's pixels at the memory port (spec/20_memory.md R65, R66, R68). -/

namespace Sys2Proof.Machine

/-! ### Scalar results -/

/-- A triple in RESULT: `{0x00, B, G, R}` (R25). -/
def tripleWord (t : Triple) : Word := 0x00#8 ++ t.b ++ t.g ++ t.r

/-- A level or a depth sample in RESULT: `zext_32(v)` (R25). -/
def levelWord (v : Nat) : Word := BitVec.ofNat 32 v

/-- A depth sample in RESULT: `zext_32(v)` (R25). -/
def sampleWord (v : Sample) : Word := v.setWidth 32

/-! ### Image descriptors -/

/-- The element types a descriptor can name (R31). -/
inductive ElemType where
  | none
  | u16c1
  | u8c3
  | other
  deriving DecidableEq, Repr

/-- FMT.TYPE, bits [7:0] (R31). -/
def fmtType (w : Word) : Byte := w.extractLsb' 0 8

/-- The element type of a FMT register: 0 NONE, 1 U16C1, 2 U8C3, 3 to 255 OTHER (R31). -/
def elemType (w : Word) : ElemType :=
  if fmtType w = 0#8 then .none
  else if fmtType w = 1#8 then .u16c1
  else if fmtType w = 2#8 then .u8c3
  else .other

/-- FMT.TYPE <- c: the type field written, the reserved bits as they were (R31, R33). -/
def setFmtType (w : Word) (c : Byte) : Word := (w &&& 0xFFFFFF00#32) ||| c.setWidth 32

/-- W, bits [15:0] of a DIM register (R30). -/
def dimWidth (w : Word) : Nat := (w.extractLsb' 0 16).toNat

/-- H, bits [31:16] of a DIM register (R30). -/
def dimHeight (w : Word) : Nat := (w.extractLsb' 16 16).toNat

/-- N = W * H, the number of pixels. -/
def dimPixels (w : Word) : Nat := dimWidth w * dimHeight w

/-- esize(U16C1) = 2 (R32). -/
def depthSize : Nat := 2

/-- esize(U8C3) = 3 (R32). -/
def colourSize : Nat := 3

/-- An image extent does not pass the top of the address space: `ADDR + n*esize <= 2^32` (R32). -/
def extentFits (addr : Word) (n esize : Nat) : Bool :=
  decide (addr.toNat + esize * n ≤ Config.addrSpace)

/-- What the checks of R156 and R162 ask of the descriptors of an image operation with source type `ty`, source element
size `src` and destination element size `dst`: the source is a valid image of that type (R32), and the destination
extent does not pass 2^32. The previous contents of DST_DIM and DST_FMT are not checked. -/
def descriptorsOk (s : State) (ty : ElemType) (src dst : Nat) : Bool :=
  decide (elemType s.srcFmt = ty) && !(dimPixels s.srcDim == 0) &&
    extentFits s.srcAddr (dimPixels s.srcDim) src && extentFits s.dstAddr (dimPixels s.srcDim) dst

/-! ### Pixels at the memory port -/

/-- One sample: `MemRead(a, 2)`, little-endian (R65, R68). -/
def readSample (p : Platform) (m : Memory) (a : Nat) : Option Sample :=
  (memRead p m a 2).map (BitVec.ofNat 16)

/-- One triple: three `MemRead(_, 1)`, R at the lowest address (R65, R68). -/
def readTriple (p : Platform) (m : Memory) (a : Nat) : Option Triple :=
  match memRead p m a 1, memRead p m (a + 1) 1, memRead p m (a + 2) 1 with
  | some r, some g, some b => some ⟨BitVec.ofNat 8 r, BitVec.ofNat 8 g, BitVec.ofNat 8 b⟩
  | _, _, _ => none

/-- One sample: `MemWrite(a, 2, v)` (R68). -/
def writeSample (p : Platform) (m : Memory) (a : Nat) (v : Sample) : Option Memory :=
  memWrite p m a 2 v.toNat

/-- One triple: three `MemWrite(_, 1, _)` (R68). -/
def writeTriple (p : Platform) (m : Memory) (a : Nat) (t : Triple) : Option Memory :=
  match memWrite p m a 1 t.r.toNat with
  | none => none
  | some m1 =>
    match memWrite p m1 (a + 1) 1 t.g.toNat with
    | none => none
    | some m2 => memWrite p m2 (a + 2) 1 t.b.toNat

/-- The read phase: pixels 0 .. n-1 of a packed image at `a`, in ascending order (R66, R71); `none` is a bus error. -/
def readPixels {α : Type} (rd : Nat → Option α) (esize : Nat) : Nat → Nat → Option (List α)
  | _, 0 => some []
  | a, n + 1 =>
    match rd a, readPixels rd esize (a + esize) n with
    | some x, some xs => some (x :: xs)
    | _, _ => none

/-- The write phase: the pixels of a list to a packed image at `a`, in ascending order (R66, R71); `none` is a bus
error. -/
def writePixels {α : Type} (wr : Memory → Nat → α → Option Memory) (esize : Nat) :
    Memory → Nat → List α → Option Memory
  | m, _, [] => some m
  | m, a, x :: xs =>
    match wr m a x with
    | some m' => writePixels wr esize m' (a + esize) xs
    | none    => none

end Sys2Proof.Machine
end

