-- ==== Sys2Proof/Machine/ValueCodec.lean ====
section
/-! DEFINITION. The Value Codec (spec/40_value_codec.md): the functions VEnc and VDec, and the operations VENC and VDEC. -/

namespace Sys2Proof.Machine

/-- `VEnc : Z -> Triple` of R100, for levels v >= 0: the eight-row table. -/
def vEnc (v : Nat) : Triple :=
  if v = 0 then ⟨0#8, 0#8, 0#8⟩
  else if v ≤ 255 then ⟨255#8, BitVec.ofNat 8 (v - 1), 0#8⟩
  else if v ≤ 510 then ⟨BitVec.ofNat 8 (511 - v), 255#8, 0#8⟩
  else if v ≤ 765 then ⟨0#8, 255#8, BitVec.ofNat 8 (v - 511)⟩
  else if v ≤ 1020 then ⟨0#8, BitVec.ofNat 8 (1021 - v), 255#8⟩
  else if v ≤ 1275 then ⟨BitVec.ofNat 8 (v - 1021), 0#8, 255#8⟩
  else if v ≤ Config.levelMax then ⟨255#8, 0#8, BitVec.ofNat 8 (1531 - v)⟩
  else ⟨255#8, 0#8, 0#8⟩

/-- `VDec` of R101 on the channel values, over the integers (R108: the differences may be negative). -/
def vDecInt (r g b : Int) : Int :=
  if r + g + b ≤ (Config.darkSum : Int) then 0
  else if g ≤ r ∧ b ≤ r then (if b ≤ g then g - b + 1 else g - b + 1531)
  else if b ≤ g then b - r + 511
  else r - g + 1021

/-- `VDec : Triple -> Level` of R101, total on all 2^24 triples. -/
def vDec (t : Triple) : Nat := (vDecInt t.r.toNat t.g.toNat t.b.toNat).toNat

/-- VENC (R102, R103): RESULT takes the triple; a level above 1530 then raises OutOfRangeLevel. -/
def execVenc (v : Sample) (s : State) : Host.Outcome State Fault Refusal :=
  let s' := setResult (tripleWord (vEnc v.toNat)) s
  if Config.levelMax < v.toNat then .next (raiseError .outOfRangeLevel s') else .next (reportOk s')

/-- VDEC (R104): RESULT takes the level. -/
def execVdec (r g b : Byte) (s : State) : Host.Outcome State Fault Refusal :=
  .next (reportOk (setResult (levelWord (vDec ⟨r, g, b⟩)) s))

end Sys2Proof.Machine
end

