-- ==== Sys2Proof/Machine/RangeScaler.lean ====
section
/-! DEFINITION. The Range Scaler (spec/41_range_scaler.md): its numerics, the configuration operation CFG, and the maps of
SFWD and SINV, in exact rational arithmetic (R120). -/

namespace Sys2Proof.Machine

/-! ### Numerics -/

/-- The value of a binary32 pattern (R121). -/
inductive F32Value where
  | nan
  | inf
  | finite (q : Rat)
  deriving DecidableEq, Repr

/-- The exponent field `e = p[30:23]` (R121). -/
def f32Exp (p : Word) : Nat := (p.extractLsb' 23 8).toNat

/-- The fraction field `m = p[22:0]` (R121). -/
def f32Frac (p : Word) : Nat := (p.extractLsb' 0 23).toNat

/-- `(-1)^s * n`, with the sign bit `s = p[31]` (R121). -/
def f32Signed (p : Word) (n : Nat) : Int := if p.getLsbD 31 then -(n : Int) else (n : Int)

/-- `f32val` of R121: the subnormal value is `m * 2^(-149)`, the normal value `(2^23 + m) * 2^(e - 150)`. -/
def f32val (p : Word) : F32Value :=
  if f32Exp p = 255 ∧ f32Frac p ≠ 0 then .nan
  else if f32Exp p = 255 then .inf
  else if f32Exp p = 0 then .finite (mkRat (f32Signed p (f32Frac p)) (2 ^ 149))
  else .finite (mkRat (f32Signed p ((2 ^ 23 + f32Frac p) * 2 ^ f32Exp p)) (2 ^ 150))

/-- `clamp01(q) = min(max(q, 0), 1)` (R9). -/
def clamp01 (q : Rat) : Rat := min (max q 0) 1

/-- `round` of R124: to the nearest integer, ties away from zero. -/
def roundAway (q : Rat) : Int :=
  if 0 ≤ q then Rat.floor (q + mkRat 1 2) else -(Rat.floor (-q + mkRat 1 2))

/-- `sat16(z)` (R9): the `u16` nearest to the integer z. -/
def sat16 (z : Int) : Sample :=
  if z < 0 then 0#16 else if 65535 < z then 65535#16 else BitVec.ofNat 16 z.toNat

/-! ### CFG -/

/-- CFG_MODE.INVERSE, bit 0 (R28). -/
def modeInverse (w : Word) : Bool := w.getLsbD 0

/-- CFG step 4 (R131): the active configuration of two bounds, or failure when they are equal. -/
def actOfBounds (minU maxU : Rat) (inv : Bool) : Option Act :=
  if maxU - minU = 0 then none else some ⟨minU, maxU, maxU - minU, inv⟩

/-- The zero minimum of R129 replaced by EPS. -/
def epsGuard (minU : Rat) : Rat := if minU = 0 then Config.eps else minU

/-- CFG steps 1 to 4 (R127 to R131) on the three staging patterns and the mode: the new active configuration and the
EPS_SUB flag, or failure. -/
def deriveConfig (pMin pMax pScale : Word) (inv : Bool) : Option (Act × Bool) :=
  match f32val pMin, f32val pMax, f32val pScale with
  | .finite m, .finite mx, .finite sc =>
    if sc ≤ 0 ∨ m < 0 ∨ mx < 0 then none
    else if inv then
      if mx / sc = 0 then none
      else (actOfBounds (1 / epsGuard (m / sc)) (1 / (mx / sc)) true).map (fun act => (act, decide (m / sc = 0)))
    else (actOfBounds (m / sc) (mx / sc) false).map (fun act => (act, false))
  | _, _, _ => none

/-- CFG step 5 (R132): `LUT[v] <- VEnc(v)` for v in 0..1530. -/
def buildLut : Lut := (List.range Config.lutSize).map vEnc

/-- CFG (R127): on success ACT, LUT, VALID and EPS_SUB are committed (R132); on failure the old configuration is lost
and BadConfig is raised (R133, R46). -/
def execCfg (s : State) : Host.Outcome State Fault Refusal :=
  match deriveConfig s.cfgMinM s.cfgMaxM s.cfgScale (modeInverse s.cfgMode) with
  | some (act, eps) =>
    .next (reportOk { s with act := some act, lut := some buildLut, status := setEpsSub (setValid s.status true) eps })
  | none =>
    .next (raiseError .badConfig
      { s with act := none, lut := none, status := setEpsSub (setValid s.status false) false })

/-! ### The forward map -/

/-- `ScaleFwd : u16 -> Level` of R134. -/
def scaleFwd (act : Act) (d : Sample) : Nat :=
  if d.toNat = 0 then 0
  else
    let d' : Rat := if act.inverse then 1 / (d.toNat : Rat) else (d.toNat : Rat)
    (roundAway ((Config.levelMax : Rat) * clamp01 ((d' - act.minU) / act.rangeU))).toNat

/-- SFWD (R135). -/
def execSfwd (d : Sample) (s : State) : Host.Outcome State Fault Refusal :=
  withAct s fun act => .next (reportOk (setResult (levelWord (scaleFwd act d)) s))

/-! ### The inverse map -/

/-- The value d' of R136 for a level in 1..1530. -/
def levelDepth (act : Act) (l : Nat) : Rat := act.minU + act.rangeU * (l : Rat) / (Config.levelMax : Rat)

/-- `ScaleInv : u16 -> u16` of R136. -/
def scaleInv (act : Act) (l : Nat) : Sample :=
  if l = 0 ∨ Config.levelMax < l then 0#16
  else sat16 (roundAway (if act.inverse then 1 / levelDepth act l else levelDepth act l))

/-- SINV (R137). -/
def execSinv (l : Sample) (s : State) : Host.Outcome State Fault Refusal :=
  withAct s fun act => .next (reportOk (setResult (sampleWord (scaleInv act l.toNat)) s))

end Sys2Proof.Machine
end

