-- ==== Sys2Proof/Machine/ImageCodec.lean ====
section
/-! DEFINITION. The Image Codec (spec/42_image_codec.md): the per-pixel functions with PENC and PDEC, and the image passes
IENC and IDEC. -/

namespace Sys2Proof.Machine

/-- `PixEnc(d) = LUT[ScaleFwd(d)]` (R150). -/
def pixEnc (act : Act) (lut : Lut) (d : Sample) : Triple := lutEntry lut (scaleFwd act d)

/-- `PixDec(R, G, B) = ScaleInv(VDec(R, G, B))` (R152). -/
def pixDec (act : Act) (t : Triple) : Sample := scaleInv act (vDec t)

/-- PENC (R151). -/
def execPenc (d : Sample) (s : State) : Host.Outcome State Fault Refusal :=
  withAct s fun act => withLut s fun lut =>
    .next (reportOk (setResult (tripleWord (pixEnc act lut d)) s))

/-- PDEC (R153). -/
def execPdec (r g b : Byte) (s : State) : Host.Outcome State Fault Refusal :=
  withAct s fun act => .next (reportOk (setResult (sampleWord (pixDec act ⟨r, g, b⟩)) s))

/-- The pass of R155 and R161 once a configuration is there: the checks of R156 and R162, the read phase (R157, R163), the
write phase (R158, R163) with the bus errors of R64, and the new destination descriptor (R33, R159, R164). Every source
byte is read before any destination byte is written (R70), so an overlap of the extents changes nothing (R160, R165). -/
def imagePass {α β : Type} (s : State) (srcType : ElemType) (srcSize dstSize : Nat) (dstCode : Byte)
    (rd : Nat → Option α) (wr : Memory → Nat → β → Option Memory) (pixel : α → β) : State :=
  if descriptorsOk s srcType srcSize dstSize then
    match readPixels rd srcSize s.srcAddr.toNat (dimPixels s.srcDim) with
    | none => raiseError .busError s
    | some xs =>
      match writePixels wr dstSize s.mem s.dstAddr.toNat (xs.map pixel) with
      | none =>
        raiseError .busError
          { s with
            mem := scramble s.platform s.draws s.mem s.dstAddr.toNat (dstSize * dimPixels s.srcDim),
            draws := s.draws + 1 }
      | some m => reportOk { s with mem := m, dstDim := s.srcDim, dstFmt := setFmtType s.dstFmt dstCode }
  else raiseError .invalidInput s

/-- IENC (R155): a U16C1 source image becomes a U8C3 destination image. -/
def execIenc (s : State) : Host.Outcome State Fault Refusal :=
  withAct s fun act => withLut s fun lut =>
    .next (imagePass s .u16c1 depthSize colourSize 2#8 (readSample s.platform s.mem) (writeTriple s.platform)
      (pixEnc act lut))

/-- IDEC (R161): a U8C3 source image becomes a U16C1 destination image. -/
def execIdec (s : State) : Host.Outcome State Fault Refusal :=
  withAct s fun act =>
    .next (imagePass s .u8c3 colourSize depthSize 1#8 (readTriple s.platform s.mem) (writeSample s.platform)
      (pixDec act))

end Sys2Proof.Machine
end

