-- ==== Sys2Proof/Machine/Dispatch.lean ====
section
/-! DEFINITION. One arm per operation (spec/30_encoding.md R86). -/

namespace Sys2Proof.Machine

def exec (i : Instr) (s : State) : Host.Outcome State Fault Refusal :=
  match i with
  | .venc v => Sys2Proof.Machine.execVenc v s
  | .vdec r g b => Sys2Proof.Machine.execVdec r g b s
  | .cfg => Sys2Proof.Machine.execCfg s
  | .sfwd d => Sys2Proof.Machine.execSfwd d s
  | .sinv l => Sys2Proof.Machine.execSinv l s
  | .penc d => Sys2Proof.Machine.execPenc d s
  | .pdec r g b => Sys2Proof.Machine.execPdec r g b s
  | .ienc => Sys2Proof.Machine.execIenc s
  | .idec => Sys2Proof.Machine.execIdec s

end Sys2Proof.Machine
end

