-- ==== Sys2Proof/Machine/HostPort.lean ====
section
/-! DEFINITION. The host side of HUEC (spec/10_state.md R23, R26 to R36, spec/00_scope.md R13): reads and writes of the
register window, the command write, Reset, and the host's own stores to memory. -/

namespace Sys2Proof.Machine

/-- The register at a byte offset of the window (R23); `none` from 0x34 upward and at an offset that is no multiple of 4. -/
def regAt (off : Word) : Option Reg :=
  if off = 0x00#32 then some .cmd
  else if off = 0x04#32 then some .status
  else if off = 0x08#32 then some .result
  else if off = 0x0C#32 then some .cfgMinM
  else if off = 0x10#32 then some .cfgMaxM
  else if off = 0x14#32 then some .cfgScale
  else if off = 0x18#32 then some .cfgMode
  else if off = 0x1C#32 then some .srcAddr
  else if off = 0x20#32 then some .srcDim
  else if off = 0x24#32 then some .srcFmt
  else if off = 0x28#32 then some .dstAddr
  else if off = 0x2C#32 then some .dstDim
  else if off = 0x30#32 then some .dstFmt
  else none

/-- The byte offset of a register (R23). -/
def regOffset : Reg → Word
  | .cmd      => 0x00#32
  | .status   => 0x04#32
  | .result   => 0x08#32
  | .cfgMinM  => 0x0C#32
  | .cfgMaxM  => 0x10#32
  | .cfgScale => 0x14#32
  | .cfgMode  => 0x18#32
  | .srcAddr  => 0x1C#32
  | .srcDim   => 0x20#32
  | .srcFmt   => 0x24#32
  | .dstAddr  => 0x28#32
  | .dstDim   => 0x2C#32
  | .dstFmt   => 0x30#32

/-- The value a host read of a register returns; CMD reads 0 (R23, R26). -/
def readReg (s : State) : Reg → Word
  | .cmd      => 0x00000000#32
  | .status   => s.status
  | .result   => s.result
  | .cfgMinM  => s.cfgMinM
  | .cfgMaxM  => s.cfgMaxM
  | .cfgScale => s.cfgScale
  | .cfgMode  => s.cfgMode
  | .srcAddr  => s.srcAddr
  | .srcDim   => s.srcDim
  | .srcFmt   => s.srcFmt
  | .dstAddr  => s.dstAddr
  | .dstDim   => s.dstDim
  | .dstFmt   => s.dstFmt

/-- The writable bit of CFG_MODE (R28). -/
def modeMask : Word := 0x00000001#32

/-- The writable bits of SRC_FMT and DST_FMT (R31). -/
def fmtMask : Word := 0x000000FF#32

/-- A host write to CMD (R26, R82): the operation is executed to completion, and an illegal word raises IllegalCommand
(R185). The value is not stored. -/
def commandWrite (w : Word) (s : State) : Host.Outcome State Fault Refusal :=
  match decode w with
  | .ok i    => exec i s
  | .error _ => .next (raiseError .illegalCommand s)

/-- A host write to a register (R23, R34 to R36): RESULT ignores it, STATUS clears the sticky bits written with 1, the
reserved bits of CFG_MODE and of the FMT registers ignore it (R28, R31). -/
def writeReg (r : Reg) (v : Word) (s : State) : Host.Outcome State Fault Refusal :=
  match r with
  | .cmd      => commandWrite v s
  | .status   => .next { s with status := statusHostWrite s.status v }
  | .result   => .next s
  | .cfgMinM  => .next { s with cfgMinM := v }
  | .cfgMaxM  => .next { s with cfgMaxM := v }
  | .cfgScale => .next { s with cfgScale := v }
  | .cfgMode  => .next { s with cfgMode := v &&& modeMask }
  | .srcAddr  => .next { s with srcAddr := v }
  | .srcDim   => .next { s with srcDim := v }
  | .srcFmt   => .next { s with srcFmt := v &&& fmtMask }
  | .dstAddr  => .next { s with dstAddr := v }
  | .dstDim   => .next { s with dstDim := v }
  | .dstFmt   => .next { s with dstFmt := v &&& fmtMask }

/-- Only aligned 32-bit accesses to the window are defined (R34). -/
def accessDefined (size : AccessSize) (off : Word) : Bool :=
  decide (size = .word) && decide (off.extractLsb' 0 2 = 0#2)

/-- HostWrite(off, v) (R13): a write from 0x34 upward is ignored, an undefined access is refused (R34). -/
def hostWrite (size : AccessSize) (off v : Word) (s : State) : Host.Outcome State Fault Refusal :=
  if accessDefined size off then
    match regAt off with
    | some r => writeReg r v s
    | none   => .next s
  else .refused .registerAccessUndefined

/-- The value HostRead(off) returns: 0 from 0x34 upward (R34). -/
def readWindow (s : State) (off : Word) : Word :=
  match regAt off with
  | some r => readReg s r
  | none   => 0x00000000#32

/-- HostRead(off) (R13, R35): no side effect on HUEC; an undefined access is refused (R34). -/
def hostRead (size : AccessSize) (off : Word) (s : State) : Host.Outcome State Fault Refusal :=
  if accessDefined size off then .next { s with readData := readWindow s off }
  else .refused .registerAccessUndefined

/-- The event Reset (R200 to R202): every register of HUEC and its ACT and LUT as after Reset. The memory, the platform
and what is on the host's side stay. -/
def resetEvent (s : State) : State :=
  { State.resetOn s.platform s.mem with host := s.host, readData := s.readData, draws := s.draws }

/-- A store of one byte by the host to the platform memory (R73; log 6). -/
def hostStore (addr : Word) (b : Byte) (s : State) : State :=
  { s with mem := Memory.write s.mem addr.toNat b }

/-- One host action, run to completion (R72, R194). -/
def perform (a : HostAction) (s : State) : Host.Outcome State Fault Refusal :=
  match a with
  | .write size off v => hostWrite size off v s
  | .read size off    => hostRead size off s
  | .reset            => .next (resetEvent s)
  | .memStore addr b  => .next (hostStore addr b s)

end Sys2Proof.Machine
end

