-- ==== Sys2Proof/Machine/Step.lean ====
section
/-! DEFINITION. One step of the machine. HUEC has no program counter and fetches no instructions (spec/10_state.md R21): a
step takes the host's next pending action and runs it to completion (R72, R194); with none pending the block waits. -/

namespace Sys2Proof.Machine

/-- One step: the host's next action, or, with none pending, no change. -/
def step (s : State) : Host.Outcome State Fault Refusal :=
  match s.host with
  | []        => .next s
  | a :: rest => perform a { s with host := rest }

/-- The command word `w` placed where `step` takes its next operation from: a host write of it to CMD, ahead of the
actions already pending (log 5). A command is one 32-bit word (R80), so of an instruction of `nbits` bits the low 32
count, and the bits above `nbits` are zero. -/
def State.withFetchWord (s : State) (nbits w : Nat) : State :=
  { s with host := .write .word 0x00#32 (BitVec.ofNat 32 (w % 2 ^ nbits)) :: s.host }

end Sys2Proof.Machine
end

