-- ==== Sys2Proof/Machine/Assembler.lean ====
section
/-! DEFINITION. The assembler syntax and the host statements of programs (spec/30_encoding.md R89, R90): what a statement
stands for as host actions. No step reads it. -/

namespace Sys2Proof.Machine

/-- The operation an operation statement stands for; `none` is the assembler's refusal of an operand out of range
(R89). -/
def asmInstr (a : AsmOp) : Option Instr :=
  if a.wellFormed then
    some (match a with
      | .venc v     => .venc (BitVec.ofNat 16 v)
      | .vdec r g b => .vdec (BitVec.ofNat 8 r) (BitVec.ofNat 8 g) (BitVec.ofNat 8 b)
      | .cfg        => .cfg
      | .sfwd d     => .sfwd (BitVec.ofNat 16 d)
      | .sinv l     => .sinv (BitVec.ofNat 16 l)
      | .penc d     => .penc (BitVec.ofNat 16 d)
      | .pdec r g b => .pdec (BitVec.ofNat 8 r) (BitVec.ofNat 8 g) (BitVec.ofNat 8 b)
      | .ienc       => .ienc
      | .idec       => .idec)
  else none

/-- The command word of an operation statement, by the arithmetic of R89: `(v << 8) | OP` and
`(b << 24) | (g << 16) | (r << 8) | OP` on numbers. -/
def asmWord (a : AsmOp) : Option Word :=
  if a.wellFormed then
    some (BitVec.ofNat 32 (match a with
      | .venc v     => v * 2 ^ 8 + 0x01
      | .vdec r g b => b * 2 ^ 24 + g * 2 ^ 16 + r * 2 ^ 8 + 0x02
      | .cfg        => 0x00000010
      | .sfwd d     => d * 2 ^ 8 + 0x11
      | .sinv l     => l * 2 ^ 8 + 0x12
      | .penc d     => d * 2 ^ 8 + 0x20
      | .pdec r g b => b * 2 ^ 24 + g * 2 ^ 16 + r * 2 ^ 8 + 0x21
      | .ienc       => 0x00000022
      | .idec       => 0x00000023))
  else none

/-- The statements of R90: host writes and reads, operations, and the four pseudo-instructions. -/
inductive HostStmt where
  | wr (r : Reg) (v : Word)
  | rd (r : Reg)
  | op (a : AsmOp)
  | setCfg (min max scale inv : Word)
  | setSrc (addr : Word) (w h : Sample) (type : Word)
  | setDst (addr : Word) (w h : Sample) (type : Word)
  | clrErr
  deriving DecidableEq, Repr

/-- `WR name, value` is `HostWrite(offset(name), value)` (R90). -/
def wrAction (r : Reg) (v : Word) : HostAction := .write .word (regOffset r) v

/-- `(h << 16) | w`, the DIM word of SETSRC and SETDST (R90). -/
def dimWord (w h : Sample) : Word := h ++ w

/-- The expansion of a statement (R90); `none` is the assembler's refusal (R89). -/
def expandStmt : HostStmt → Option (List HostAction)
  | .wr r v => some [wrAction r v]
  | .rd r   => some [.read .word (regOffset r)]
  | .op a   => (asmWord a).map fun w => [wrAction .cmd w]
  | .setCfg mn mx sc inv =>
    (asmWord .cfg).map fun w =>
      [wrAction .cfgMinM mn, wrAction .cfgMaxM mx, wrAction .cfgScale sc, wrAction .cfgMode inv, wrAction .cmd w]
  | .setSrc addr w h ty => some [wrAction .srcAddr addr, wrAction .srcDim (dimWord w h), wrAction .srcFmt ty]
  | .setDst addr w h ty => some [wrAction .dstAddr addr, wrAction .dstDim (dimWord w h), wrAction .dstFmt ty]
  | .clrErr => some [wrAction .status 0x000003F0#32]

end Sys2Proof.Machine
end

