-- ==== Sys2Proof/Safety.lean ====
section
/-! DEFINITION. What counts as a safe state and a safe run, in the terms the claims use. -/

namespace Sys2Proof.Machine

/-- R38: what holds of the active configuration while STATUS.VALID = 1. -/
structure Act.Sound (act : Act) : Prop where
  range_eq      : act.rangeU = act.maxU - act.minU
  range_ne      : act.rangeU ≠ 0
  min_nonneg    : 0 ≤ act.minU
  max_nonneg    : 0 ≤ act.maxU
  min_pos       : act.inverse = true → 0 < act.minU
  max_pos       : act.inverse = true → 0 < act.maxU

/-- The invariant of the machine: what the spec says of every state a run reaches. -/
structure State.Inv (s : State) : Prop where
  /-- The reserved bits of STATUS read 0 (R24). -/
  status_reserved : s.status &&& statusReservedMask = 0#32
  /-- "Codes 7 to 15 are never produced" (R180). -/
  last_code       : (statusLast s.status).toNat ≤ 6
  /-- Bits 31:1 of CFG_MODE read 0 (R28). -/
  mode_reserved   : s.cfgMode &&& ~~~modeMask = 0#32
  /-- Bits 31:8 of SRC_FMT read 0 (R31). -/
  src_reserved    : s.srcFmt &&& ~~~fmtMask = 0#32
  /-- Bits 31:8 of DST_FMT read 0 (R31). -/
  dst_reserved    : s.dstFmt &&& ~~~fmtMask = 0#32
  /-- ACT has a value exactly while STATUS.VALID = 1 (R24, R44 to R46). -/
  act_valid       : s.act.isSome = statusValid s.status
  /-- The value of ACT satisfies R38. -/
  act_sound       : ∀ act, s.act = some act → act.Sound
  /-- While STATUS.VALID = 1, LUT[v] = VEnc(v) for every v in 0..1530 (R40); else LUT has no value. -/
  lut_valid       : s.lut = if statusValid s.status then some buildLut else none
  /-- EPS_SUB = 1 only under an inverse-mode configuration whose minimum was replaced by EPS (R24, R129, R133). -/
  eps_sub         : statusEpsSub s.status = true → ∃ act, s.act = some act ∧ act.inverse = true ∧ act.minU = 1 / Config.eps
  /-- Memory keeps its canonical form. -/
  mem_wf          : Memory.wf s.mem = true

/-! ### Terms of the claims, written from the spec's words and not from the model's functions -/

/-- What a success report leaves in STATUS (R191): LAST = 0, and every bit outside LAST as before. -/
def OkReport (w w' : Word) : Prop :=
  statusLast w' = 0#4 ∧ ∀ i, i < 32 → i < 16 ∨ 20 ≤ i → w'.getLsbD i = w.getLsbD i

/-- What an error report with code `c` leaves in STATUS (R190): LAST = c, bit 3 + c set, and every other bit as before. -/
def ErrReport (c : Nat) (w w' : Word) : Prop :=
  statusLast w' = BitVec.ofNat 4 c ∧ w'.getLsbD (3 + c) = true ∧
    ∀ i, i < 32 → i < 16 ∨ 20 ≤ i → i ≠ 3 + c → w'.getLsbD i = w.getLsbD i

/-- What a successful CFG leaves in STATUS (R132): VALID = 1, EPS_SUB as given, LAST = 0, and every other bit as before. -/
def CommitReport (eps : Bool) (w w' : Word) : Prop :=
  w'.getLsbD 0 = true ∧ w'.getLsbD 1 = eps ∧ statusLast w' = 0#4 ∧
    ∀ i, i < 32 → 2 ≤ i → i < 16 ∨ 20 ≤ i → w'.getLsbD i = w.getLsbD i

/-- What a failed CFG leaves in STATUS (R133): VALID = 0, EPS_SUB = 0, E_CONFIG = 1, LAST = 3, and every other bit as
before. -/
def RefuseReport (w w' : Word) : Prop :=
  w'.getLsbD 0 = false ∧ w'.getLsbD 1 = false ∧ w'.getLsbD 6 = true ∧ statusLast w' = 3#4 ∧
    ∀ i, i < 32 → 2 ≤ i → i < 16 ∨ 20 ≤ i → i ≠ 6 → w'.getLsbD i = w.getLsbD i

/-- The table of R39 as CFG leaves it (R132): 1531 entries, entry v the code point of level v. -/
def TableBuilt (lut : Option Lut) : Prop :=
  ∃ l, lut = some l ∧ l.length = 1531 ∧ ∀ v, v ≤ 1530 → l[v]? = some (vEnc v)

/-- `n` is the non-negative rational `q` rounded to the nearest integer, ties up (R124). -/
def IsRounded (q : Rat) (n : Nat) : Prop := (n : Rat) - 1 / 2 ≤ q ∧ q < (n : Rat) + 1 / 2

/-- `l` is the level of sample `d` (R134). -/
def ForwardLevel (act : Act) (d : Sample) (l : Nat) : Prop :=
  (d.toNat = 0 → l = 0) ∧
    (d.toNat ≠ 0 → IsRounded
      (1530 * min (max (((if act.inverse then 1 / (d.toNat : Rat) else (d.toNat : Rat)) - act.minU) / act.rangeU) 0) 1) l)

/-- The depth of level `l` before rounding (R136). -/
def depthOfLevel (act : Act) (l : Nat) : Rat :=
  if act.inverse then 1 / (act.minU + act.rangeU * (l : Rat) / 1530) else act.minU + act.rangeU * (l : Rat) / 1530

/-- `v` is the sample of level `l` (R136): 0 for an invalid level, else the rounded depth, saturated at 65535. -/
def InverseSample (act : Act) (l : Nat) (v : Sample) : Prop :=
  (l = 0 ∨ 1530 < l → v.toNat = 0) ∧
    (1 ≤ l → l ≤ 1530 → ∃ n, IsRounded (depthOfLevel act l) n ∧ v.toNat = min n 65535)

/-- The DepthSample stored at `a`, little-endian (R65). -/
def sampleAt (m : Memory) (a : Nat) : Sample :=
  BitVec.ofNat 16 ((Memory.read m a).toNat + 256 * (Memory.read m (a + 1)).toNat)

/-- The ColorTriple stored at `a`, R at the lowest address (R65). -/
def tripleAt (m : Memory) (a : Nat) : Triple := ⟨Memory.read m a, Memory.read m (a + 1), Memory.read m (a + 2)⟩

/-- N = W * H of the source descriptor (R30, R155). -/
def pixelCount (s : State) : Nat := s.srcDim.toNat % 65536 * (s.srcDim.toNat / 65536)

/-- The descriptors an image pass accepts (R32, R156, R162): the source type is `ty`, the image is not empty, and the
source extent of `es` bytes a pixel and the destination extent of `ed` bytes a pixel do not pass 2^32. -/
def PassReady (s : State) (ty es ed : Nat) : Prop :=
  s.srcFmt.toNat % 256 = ty ∧ pixelCount s ≠ 0 ∧
    s.srcAddr.toNat + es * pixelCount s ≤ 2 ^ 32 ∧ s.dstAddr.toNat + ed * pixelCount s ≤ 2 ^ 32

/-- Every byte of the source extent is admitted for read (R64). -/
def SourceAdmitted (s : State) (es : Nat) : Prop :=
  ∀ a, s.srcAddr.toNat ≤ a → a < s.srcAddr.toNat + es * pixelCount s → memAdmit s.platform a .read = true

/-- Every byte of the destination extent is admitted for write (R64). -/
def DestAdmitted (s : State) (ed : Nat) : Prop :=
  ∀ a, s.dstAddr.toNat ≤ a → a < s.dstAddr.toNat + ed * pixelCount s → memAdmit s.platform a .write = true

/-- An outcome with its next state mapped; a fault and a refusal stay. -/
def mapNext (f : State → State) : Host.Outcome State Fault Refusal → Host.Outcome State Fault Refusal
  | .next s    => .next (f s)
  | .fault r   => .fault r
  | .refused r => .refused r

/-- The operations that need a valid configuration (R184). -/
def needsConfig : Instr → Bool
  | .venc _ | .vdec _ _ _ | .cfg => false
  | .sfwd _ | .sinv _ | .penc _ | .pdec _ _ _ | .ienc | .idec => true

/-- The operations that use the memory port (R60). -/
def usesMemory : Instr → Bool
  | .ienc | .idec => true
  | .venc _ | .vdec _ _ _ | .cfg | .sfwd _ | .sinv _ | .penc _ | .pdec _ _ _ => false

/-- A host action that R34 defines: an aligned 32-bit access of the window, Reset, or a store to memory. -/
def HostAction.defined : HostAction → Bool
  | .write size off _ => accessDefined size off
  | .read size off    => accessDefined size off
  | .reset            => true
  | .memStore _ _     => true

end Sys2Proof.Machine
end

