-- ==== Sys2Proof/Certificates/Slice0/Obligations.lean ====
section
/-! DEFINITION. The statements for the provers, from the numbered rules of spec/. -/

open Sys2Proof Sys2Proof.Machine

/-! ### Encoding -/

/-- R82, R86, R89: decoding the word of a well-formed operation gives the operation back, and a word that decodes to an
operation is that operation's word, so no bit of a command word is dropped. -/
def Obligations.EveryOperationRoundTrips : Prop :=
  (∀ i : Instr, i.wellFormed = true → decode (encode i) = .ok i) ∧
    ∀ (w : Word) (i : Instr), decode w = .ok i → encode i = w

/-- R86: a word encodes an operation exactly when it matches the operation's row of the table, and it is illegal exactly
when it matches no row. -/
def Obligations.DecoderAcceptsExactlyTheTable : Prop :=
  ∀ w : Word,
    (∀ row ∈ opcodeTable,
      (w &&& row.mask = row.pattern ↔ ∃ i : Instr, decode w = .ok i ∧ i.mnemonic = row.mnemonic)) ∧
    ((∃ e, decode w = .error e) ↔ ∀ row ∈ opcodeTable, w &&& row.mask ≠ row.pattern)

/-- R82: decoding, case by case in the numbers of R82: the opcode is the low byte, an operand is the field the rule names,
a non-zero must-be-zero field or any other opcode is illegal, and illegal means that IllegalCommand is raised. -/
def Obligations.DecodingReadsTheFieldsOfTheWord : Prop :=
  ∀ w : Word,
    (w.toNat % 256 = 0x01 → w.toNat / 2 ^ 24 = 0 →
      ∃ v, decode w = .ok (.venc v) ∧ v.toNat = w.toNat / 2 ^ 8 % 2 ^ 16) ∧
    (w.toNat % 256 = 0x02 → ∃ r g b, decode w = .ok (.vdec r g b) ∧ r.toNat = w.toNat / 2 ^ 8 % 2 ^ 8 ∧
      g.toNat = w.toNat / 2 ^ 16 % 2 ^ 8 ∧ b.toNat = w.toNat / 2 ^ 24) ∧
    (w.toNat % 256 = 0x10 → w.toNat / 2 ^ 8 = 0 → decode w = .ok .cfg) ∧
    (w.toNat % 256 = 0x11 → w.toNat / 2 ^ 24 = 0 →
      ∃ v, decode w = .ok (.sfwd v) ∧ v.toNat = w.toNat / 2 ^ 8 % 2 ^ 16) ∧
    (w.toNat % 256 = 0x12 → w.toNat / 2 ^ 24 = 0 →
      ∃ v, decode w = .ok (.sinv v) ∧ v.toNat = w.toNat / 2 ^ 8 % 2 ^ 16) ∧
    (w.toNat % 256 = 0x20 → w.toNat / 2 ^ 24 = 0 →
      ∃ v, decode w = .ok (.penc v) ∧ v.toNat = w.toNat / 2 ^ 8 % 2 ^ 16) ∧
    (w.toNat % 256 = 0x21 → ∃ r g b, decode w = .ok (.pdec r g b) ∧ r.toNat = w.toNat / 2 ^ 8 % 2 ^ 8 ∧
      g.toNat = w.toNat / 2 ^ 16 % 2 ^ 8 ∧ b.toNat = w.toNat / 2 ^ 24) ∧
    (w.toNat % 256 = 0x22 → w.toNat / 2 ^ 8 = 0 → decode w = .ok .ienc) ∧
    (w.toNat % 256 = 0x23 → w.toNat / 2 ^ 8 = 0 → decode w = .ok .idec) ∧
    ((w.toNat % 256 ∉ [0x01, 0x02, 0x10, 0x11, 0x12, 0x20, 0x21, 0x22, 0x23] ∨
        (w.toNat % 256 ∈ [0x10, 0x22, 0x23] ∧ w.toNat / 2 ^ 8 ≠ 0) ∨
        (w.toNat % 256 ∈ [0x01, 0x11, 0x12, 0x20] ∧ w.toNat / 2 ^ 24 ≠ 0)) →
      (∃ e, decode w = .error e) ∧ ∀ s, commandWrite w s = .next (raiseError .illegalCommand s))

/-- The command words of the spec's own examples decode to the operations they stand for. -/
def Obligations.SpecWordsDecodeAsWritten : Prop :=
  decode 0x00010001#32 = .ok (.venc 256#16) ∧ decode 0x3264C802#32 = .ok (.vdec 200#8 100#8 50#8) ∧
    decode 0x00000010#32 = .ok .cfg ∧ decode 0x00000511#32 = .ok (.sfwd 5#16) ∧
    decode 0x0005FA12#32 = .ok (.sinv 1530#16) ∧ decode 0x00000520#32 = .ok (.penc 5#16) ∧
    decode 0xFEFF0021#32 = .ok (.pdec 0#8 255#8 254#8) ∧ decode 0x00000022#32 = .ok .ienc ∧
    decode 0x00000023#32 = .ok .idec

/-- R87, R185: a word with an unassigned opcode, or with an assigned one and a non-zero bit in a must-be-zero field,
raises IllegalCommand when it is written to CMD, and has no other effect. -/
def Obligations.IllegalCommandOnlyReports : Prop :=
  ∀ (s : State) (w : Word) (rest : List HostAction),
    s.host = .write .word 0x00#32 w :: rest →
    (w.toNat % 256 ∉ [0x01, 0x02, 0x10, 0x11, 0x12, 0x20, 0x21, 0x22, 0x23] ∨
      (w.toNat % 256 ∈ [0x10, 0x22, 0x23] ∧ w.toNat / 256 ≠ 0) ∨
      (w.toNat % 256 ∈ [0x01, 0x11, 0x12, 0x20] ∧ w.toNat / 2 ^ 24 ≠ 0)) →
    ∃ t, step s = .next t ∧ t = { s with host := rest, status := t.status } ∧ ErrReport 5 s.status t.status

/-- R89: the assembler refuses an operand out of range, and the word of any statement it accepts decodes to the
statement's operation, so it cannot produce an illegal command. -/
def Obligations.AssemblerMakesNoIllegalCommand : Prop :=
  ∀ a : AsmOp,
    (a.wellFormed = false → asmWord a = none) ∧
    (a.wellFormed = true → ∃ w i, asmWord a = some w ∧ asmInstr a = some i ∧ decode w = .ok i ∧ i.toAsm = a)

/-! ### The step and the host's accesses -/

/-- R13, R21, R26: a step takes the host's next action; a write to CMD of a word that decodes to an operation runs exactly
that operation on the state with the action taken; with no action pending nothing changes (the waiting step is the
model's choice, log 5). -/
def Obligations.StepRunsTheDecodedCommand : Prop :=
  ∀ (s : State) (rest : List HostAction),
    (∀ (w : Word) (i : Instr), s.host = .write .word 0x00#32 w :: rest → decode w = .ok i →
      step s = exec i { s with host := rest }) ∧
    (s.host = [] → step s = .next s)

/-- R43, R44, R201: after Reset every register reads 0, ACT and LUT have no value, and memory is not touched; the machine's
reset state is such a state. -/
def Obligations.ResetClearsEveryRegister : Prop :=
  (∀ (s : State) (rest : List HostAction), s.host = .reset :: rest →
    ∃ t, step s = .next t ∧ (∀ r, readReg t r = 0#32) ∧ t.act = none ∧ t.lut = none ∧ t.mem = s.mem) ∧
  (∀ r, readReg State.reset r = 0#32) ∧ State.reset.act = none ∧ State.reset.lut = none

/-- Reset leaves the platform and the model's own fields: the host's pending actions, the data of its latest read, and the
draw counter (the model's choice, log 8). -/
def Obligations.ResetLeavesTheOutside : Prop :=
  ∀ (s : State) (rest : List HostAction), s.host = .reset :: rest →
    ∃ t, step s = .next t ∧ t.platform = s.platform ∧ t.host = rest ∧ t.readData = s.readData ∧ t.draws = s.draws

/-- An aligned 32-bit host read returns the register at the offset (R23, R26, R35); CMD reads 0, and nothing of HUEC, of
the memory or of the pending actions but the read itself changes. Two clauses are the model's choice: the value read is kept
in readData (log 7), and every aligned offset from 0x34 up to 0xFFFFFFFC reads 0 (log 14; R34 says so only inside the window
the platform decodes). -/
def Obligations.HostReadReturnsTheRegister : Prop :=
  ∀ (s : State) (off : Word) (rest : List HostAction), s.host = .read .word off :: rest → off.toNat % 4 = 0 →
    ∃ t, step s = .next t ∧ t = { s with host := rest, readData := t.readData } ∧
      (off.toNat = 0x00 → t.readData = 0#32) ∧ (off.toNat = 0x04 → t.readData = s.status) ∧
      (off.toNat = 0x08 → t.readData = s.result) ∧ (off.toNat = 0x0C → t.readData = s.cfgMinM) ∧
      (off.toNat = 0x10 → t.readData = s.cfgMaxM) ∧ (off.toNat = 0x14 → t.readData = s.cfgScale) ∧
      (off.toNat = 0x18 → t.readData = s.cfgMode) ∧ (off.toNat = 0x1C → t.readData = s.srcAddr) ∧
      (off.toNat = 0x20 → t.readData = s.srcDim) ∧ (off.toNat = 0x24 → t.readData = s.srcFmt) ∧
      (off.toNat = 0x28 → t.readData = s.dstAddr) ∧ (off.toNat = 0x2C → t.readData = s.dstDim) ∧
      (off.toNat = 0x30 → t.readData = s.dstFmt) ∧ (0x34 ≤ off.toNat → t.readData = 0#32)

/-- An aligned 32-bit host write to a register other than CMD and STATUS stores the writable bits of that register and
changes nothing else; a write to RESULT is ignored (R23, R27 to R31, R34). One clause is the model's choice: a write at every
aligned offset from 0x34 up to 0xFFFFFFFC is ignored (log 14; R34 says so only inside the window the platform decodes). -/
def Obligations.HostWriteStoresTheWritableBits : Prop :=
  ∀ (s : State) (off v : Word) (rest : List HostAction), s.host = .write .word off v :: rest → off.toNat % 4 = 0 →
    off.toNat ≠ 0x00 → off.toNat ≠ 0x04 →
    ∃ t, step s = .next t ∧
      (off.toNat = 0x08 ∨ 0x34 ≤ off.toNat → t = { s with host := rest }) ∧
      (off.toNat = 0x0C → t = { s with host := rest, cfgMinM := v }) ∧
      (off.toNat = 0x10 → t = { s with host := rest, cfgMaxM := v }) ∧
      (off.toNat = 0x14 → t = { s with host := rest, cfgScale := v }) ∧
      (off.toNat = 0x18 → t = { s with host := rest, cfgMode := t.cfgMode } ∧ t.cfgMode.toNat = v.toNat % 2) ∧
      (off.toNat = 0x1C → t = { s with host := rest, srcAddr := v }) ∧
      (off.toNat = 0x20 → t = { s with host := rest, srcDim := v }) ∧
      (off.toNat = 0x24 → t = { s with host := rest, srcFmt := t.srcFmt } ∧ t.srcFmt.toNat = v.toNat % 256) ∧
      (off.toNat = 0x28 → t = { s with host := rest, dstAddr := v }) ∧
      (off.toNat = 0x2C → t = { s with host := rest, dstDim := v }) ∧
      (off.toNat = 0x30 → t = { s with host := rest, dstFmt := t.dstFmt } ∧ t.dstFmt.toNat = v.toNat % 256)

/-- R36: a host write to STATUS clears the bits of STATUS[9:4] that it writes with 1, and changes nothing else. -/
def Obligations.StatusWriteClearsWrittenStickyBits : Prop :=
  ∀ (s : State) (v : Word) (rest : List HostAction), s.host = .write .word 0x04#32 v :: rest →
    ∃ t, step s = .next t ∧ t = { s with host := rest, status := t.status } ∧
      ∀ i, i < 32 → t.status.getLsbD i =
        if 4 ≤ i ∧ i ≤ 9 ∧ v.getLsbD i = true then false else s.status.getLsbD i

/-- The step is refused exactly when the host's next action is an access narrower than 32 bits or misaligned, and no
operation is ever refused. R34 and I11 refuse such an access of the window; that the refusal holds at every offset, and that
every aligned 32-bit offset above the window is answered, is the model's choice (log 14). -/
def Obligations.OnlyUndefinedAccessesAreRefused : Prop :=
  ∀ (s : State) (r : Refusal),
    step s = .refused r ↔
      r = .registerAccessUndefined ∧ ∃ size off rest, (size ≠ AccessSize.word ∨ off.toNat % 4 ≠ 0) ∧
        ((∃ v, s.host = .write size off v :: rest) ∨ s.host = .read size off :: rest)

/-- R73, R74, R205 (the event itself is the model's choice, log 6): a store of the host to memory changes the one byte
stored to and nothing else of the machine: not the commands still to come, and no register. -/
def Obligations.HostStoreChangesOneByte : Prop :=
  ∀ (s : State) (a : Word) (b : Byte) (rest : List HostAction), Memory.wf s.mem = true →
    s.host = .memStore a b :: rest →
    ∃ t, step s = .next t ∧ t = { s with host := rest, mem := t.mem } ∧ Memory.wf t.mem = true ∧
      Memory.read t.mem a.toNat = b ∧ ∀ x, x ≠ a.toNat → Memory.read t.mem x = Memory.read s.mem x

/-- R90: running the expansion of SETSRC leaves a source descriptor of the given address, width, height and type, and
nothing else changed but the actions taken. -/
def Obligations.SetSrcDescribesTheSource : Prop :=
  ∀ (s : State) (addr ty : Word) (w h : Sample) (acts rest : List HostAction),
    expandStmt (.setSrc addr w h ty) = some acts → s.host = acts ++ rest →
    ∃ t, Sys2Proof.core.run acts.length s = .next t ∧
      t = { s with host := rest, srcAddr := addr, srcDim := t.srcDim, srcFmt := t.srcFmt } ∧
      dimWidth t.srcDim = w.toNat ∧ dimHeight t.srcDim = h.toNat ∧ t.srcFmt.toNat = ty.toNat % 256

/-! ### Error reports -/

/-- R190: an error report with code c sets STATUS bit 3 + c and puts c in LAST, and changes nothing else. -/
def Obligations.ErrorReportSetsItsBitAndLast : Prop :=
  ∀ (e : ErrorKind) (s : State),
    raiseError e s = { s with status := (raiseError e s).status } ∧
      ErrReport (errorCode e) s.status (raiseError e s).status

/-- R189, R190, R191: an operation that completes reports success, with the sticky bits as they were, or exactly one of
the six errors, with its sticky bit set and the other sticky bits as they were. -/
def Obligations.OperationReportsAtMostOneError : Prop :=
  ∀ (i : Instr) (s t : State), exec i s = .next t →
    (statusLast t.status = 0#4 ∧ ∀ e, statusSticky t.status e = statusSticky s.status e) ∨
    ∃ e, statusLast t.status = BitVec.ofNat 4 (errorCode e) ∧ statusSticky t.status e = true ∧
      ∀ e', e' ≠ e → statusSticky t.status e' = statusSticky s.status e'

/-- R184: an operation that needs a configuration, issued while STATUS.VALID = 0, reports NoConfig and writes nothing
else. -/
def Obligations.NoConfigOnlyReports : Prop :=
  ∀ (i : Instr) (s : State), needsConfig i = true → s.status.getLsbD 0 = false →
    ∃ t, exec i s = .next t ∧ t = { s with status := t.status } ∧ ErrReport 4 s.status t.status

/-- R45: no operation reads ACT or LUT while STATUS.VALID = 0, and VENC and VDEC never read them: putting other values
there changes nothing but those fields. An operation that needs them reports NoConfig then. -/
def Obligations.UnspecifiedContextIsNeverRead : Prop :=
  ∀ (i : Instr) (s : State) (act : Option Act) (lut : Option Lut), i ≠ .cfg →
    s.status.getLsbD 0 = false ∨ needsConfig i = false →
    exec i { s with act := act, lut := lut } = mapNext (fun t => { t with act := act, lut := lut }) (exec i s) ∧
      (needsConfig i = true → ∃ t, exec i s = .next t ∧ ErrReport 4 s.status t.status)

/-- R192: no operation behaves differently because a sticky bit is set: with more sticky bits set before, the same
happens, with those bits set after. -/
def Obligations.StickyBitsNeverInfluenceOperations : Prop :=
  ∀ (i : Instr) (s : State) (bits : Word),
    exec i { s with status := s.status ||| (bits &&& 0x000003F0#32) } =
      mapNext (fun t => { t with status := t.status ||| (bits &&& 0x000003F0#32) }) (exec i s)

/-- R24: no operation clears a sticky error bit. -/
def Obligations.NoOperationClearsStickyBits : Prop :=
  ∀ (i : Instr) (s t : State) (k : Nat), exec i s = .next t → 4 ≤ k → k ≤ 9 → s.status.getLsbD k = true →
    t.status.getLsbD k = true

/-! ### The Value Codec -/

/-- R102, R103, on the table of R100: VENC completes in every state and puts the triple of the segment table in RESULT, R
lowest; a level in 0..1530 is reported as success, a level above 1530 gives (255, 0, 0) with OutOfRangeLevel. Nothing
else changes. -/
def Obligations.VencFollowsTheSegmentTable : Prop :=
  ∀ (v : Sample) (s : State),
    ∃ t, exec (.venc v) s = .next t ∧ t = { s with result := t.result, status := t.status } ∧
      (v.toNat ≤ 1530 → OkReport s.status t.status) ∧ (1530 < v.toNat → ErrReport 2 s.status t.status) ∧
      (v.toNat = 0 → t.result.toNat = 0) ∧
      (1 ≤ v.toNat → v.toNat ≤ 255 → t.result.toNat = 255 + 256 * (v.toNat - 1)) ∧
      (256 ≤ v.toNat → v.toNat ≤ 510 → t.result.toNat = (511 - v.toNat) + 256 * 255) ∧
      (511 ≤ v.toNat → v.toNat ≤ 765 → t.result.toNat = 256 * 255 + 65536 * (v.toNat - 511)) ∧
      (766 ≤ v.toNat → v.toNat ≤ 1020 → t.result.toNat = 256 * (1021 - v.toNat) + 65536 * 255) ∧
      (1021 ≤ v.toNat → v.toNat ≤ 1275 → t.result.toNat = (v.toNat - 1021) + 65536 * 255) ∧
      (1276 ≤ v.toNat → v.toNat ≤ 1530 → t.result.toNat = 255 + 65536 * (1531 - v.toNat)) ∧
      (1530 < v.toNat → t.result.toNat = 255)

/-- R101, R104: VDEC completes in every state and on every triple: a dark triple gives level 0, else the dominant channel
(ties R before G before B) chooses the formula. LAST becomes 0 and nothing else changes. -/
def Obligations.VdecFollowsTheDominantChannel : Prop :=
  ∀ (r g b : Byte) (s : State),
    ∃ t, exec (.vdec r g b) s = .next t ∧ t = { s with result := t.result, status := t.status } ∧
      OkReport s.status t.status ∧
      (r.toNat + g.toNat + b.toNat ≤ 128 → t.result.toNat = 0) ∧
      (128 < r.toNat + g.toNat + b.toNat →
        (g.toNat ≤ r.toNat → b.toNat ≤ r.toNat → b.toNat ≤ g.toNat →
          (t.result.toNat : Int) = (g.toNat : Int) - b.toNat + 1) ∧
        (g.toNat ≤ r.toNat → b.toNat ≤ r.toNat → g.toNat < b.toNat →
          (t.result.toNat : Int) = (g.toNat : Int) - b.toNat + 1531) ∧
        (r.toNat < g.toNat → b.toNat ≤ g.toNat → (t.result.toNat : Int) = (b.toNat : Int) - r.toNat + 511) ∧
        (r.toNat < b.toNat → g.toNat < b.toNat → (t.result.toNat : Int) = (r.toNat : Int) - g.toNat + 1021))

/-- R105: decoding an encoded level gives it back, so encoding is injective on 0..1530; above 1530 the round trip
gives 1. -/
def Obligations.EveryLevelRoundTrips : Prop :=
  (∀ v, v ≤ 1530 → vDec (vEnc v) = v) ∧
    (∀ v w, v ≤ 1530 → w ≤ 1530 → vEnc v = vEnc w → v = w) ∧
    ∀ v, 1530 < v → vDec (vEnc v) = 1

/-- R106: a triple decodes to 0 exactly when its channels sum to at most 128, and each branch of the decoder has its own
range of levels. -/
def Obligations.DecodedLevelsLieInTheirRanges : Prop :=
  ∀ t : Triple,
    (vDec t = 0 ↔ t.r.toNat + t.g.toNat + t.b.toNat ≤ 128) ∧ vDec t ≤ 1530 ∧
    (128 < t.r.toNat + t.g.toNat + t.b.toNat →
      (t.g.toNat ≤ t.r.toNat → t.b.toNat ≤ t.r.toNat → t.b.toNat ≤ t.g.toNat → 1 ≤ vDec t ∧ vDec t ≤ 256) ∧
      (t.g.toNat ≤ t.r.toNat → t.b.toNat ≤ t.r.toNat → t.g.toNat < t.b.toNat → 1276 ≤ vDec t ∧ vDec t ≤ 1530) ∧
      (t.r.toNat < t.g.toNat → t.b.toNat ≤ t.g.toNat → 257 ≤ vDec t ∧ vDec t ≤ 766) ∧
      (t.r.toNat < t.b.toNat → t.g.toNat < t.b.toNat → 767 ≤ vDec t ∧ vDec t ≤ 1275))

/-- R106: exactly 366,145 of the 16,777,216 triples decode to 0. -/
def Obligations.DarkTriplesAreCounted : Prop :=
  (Finset.univ.filter fun c : Fin 256 × Fin 256 × Fin 256 =>
    vDec ⟨BitVec.ofFin c.1, BitVec.ofFin c.2.1, BitVec.ofFin c.2.2⟩ = 0).card = 366145

/-- R109: re-encoding the decoded level gives the triple back only for a code point. -/
def Obligations.OnlyCodePointsReencodeToThemselves : Prop :=
  ∀ t : Triple, vEnc (vDec t) = t ↔ ∃ v, v ≤ 1530 ∧ vEnc v = t

/-! ### The Range Scaler -/

/-- R121: every binary32 pattern has its IEEE-754 value, NaN and the infinities apart. -/
def Obligations.Binary32PatternsHaveTheirValue : Prop :=
  ∀ p : Word,
    (p.toNat / 2 ^ 23 % 256 = 255 → p.toNat % 2 ^ 23 ≠ 0 → f32val p = .nan) ∧
    (p.toNat / 2 ^ 23 % 256 = 255 → p.toNat % 2 ^ 23 = 0 → f32val p = .inf) ∧
    (p.toNat / 2 ^ 23 % 256 = 0 →
      f32val p = .finite ((-1) ^ (p.toNat / 2 ^ 31) * ((p.toNat % 2 ^ 23 : Nat) : Rat) * (2 : Rat) ^ (-149 : Int))) ∧
    (1 ≤ p.toNat / 2 ^ 23 % 256 → p.toNat / 2 ^ 23 % 256 ≤ 254 →
      f32val p = .finite ((-1) ^ (p.toNat / 2 ^ 31) * ((2 ^ 23 + p.toNat % 2 ^ 23 : Nat) : Rat) *
        (2 : Rat) ^ (((p.toNat / 2 ^ 23 % 256 : Nat) : Int) - 150)))

/-- R124: `round` gives the nearest integer, and a tie goes away from zero. -/
def Obligations.RoundingIsToNearestTiesAway : Prop :=
  ∀ q : Rat,
    q - 1 / 2 ≤ (roundAway q : Rat) ∧ (roundAway q : Rat) ≤ q + 1 / 2 ∧
    (∀ n : Int, 0 ≤ n → q = (n : Rat) + 1 / 2 → roundAway q = n + 1) ∧
    (∀ n : Int, n ≤ 0 → q = (n : Rat) - 1 / 2 → roundAway q = n - 1)

/-- R129, R132, R187: CFG on admissible values commits. In linear mode ACT holds the two quotients; in inverse mode with
positive bounds their reciprocals; in inverse mode with a zero minimum EPS = 10^-9 stands for it and EPS_SUB is set. The
range is the difference, the table holds every code point, VALID is 1 and LAST is 0. Nothing else changes. -/
def Obligations.CfgCommitsTheDerivedBounds : Prop :=
  ∀ (s : State) (m mx sc : Rat), f32val s.cfgMinM = .finite m → f32val s.cfgMaxM = .finite mx →
    f32val s.cfgScale = .finite sc → 0 < sc → 0 ≤ m → 0 ≤ mx →
    (s.cfgMode.getLsbD 0 = false → m ≠ mx →
      ∃ t, exec .cfg s = .next t ∧ t = { s with act := t.act, lut := t.lut, status := t.status } ∧
        t.act = some ⟨m / sc, mx / sc, mx / sc - m / sc, false⟩ ∧ TableBuilt t.lut ∧
        CommitReport false s.status t.status) ∧
    (s.cfgMode.getLsbD 0 = true → 0 < m → 0 < mx → m ≠ mx →
      ∃ t, exec .cfg s = .next t ∧ t = { s with act := t.act, lut := t.lut, status := t.status } ∧
        t.act = some ⟨sc / m, sc / mx, sc / mx - sc / m, true⟩ ∧ TableBuilt t.lut ∧
        CommitReport false s.status t.status) ∧
    (s.cfgMode.getLsbD 0 = true → m = 0 → 0 < mx → mx / sc ≠ 1 / 10 ^ 9 →
      ∃ t, exec .cfg s = .next t ∧ t = { s with act := t.act, lut := t.lut, status := t.status } ∧
        t.act = some ⟨10 ^ 9, sc / mx, sc / mx - 10 ^ 9, true⟩ ∧ TableBuilt t.lut ∧
        CommitReport true s.status t.status)

/-- R46, R133, R183: CFG on values that make the scaler undefined (a NaN or an infinity, a scale that is not positive, a
negative bound, a zero maximum in inverse mode, equal bounds) loses the configuration: VALID and EPS_SUB are cleared,
ACT and LUT have no value, BadConfig is reported. Nothing else changes. -/
def Obligations.CfgRefusesUnusableValues : Prop :=
  ∀ s : State,
    ((∀ q, f32val s.cfgMinM ≠ .finite q) ∨ (∀ q, f32val s.cfgMaxM ≠ .finite q) ∨ (∀ q, f32val s.cfgScale ≠ .finite q) ∨
      ∃ m mx sc, f32val s.cfgMinM = .finite m ∧ f32val s.cfgMaxM = .finite mx ∧ f32val s.cfgScale = .finite sc ∧
        (sc ≤ 0 ∨ m < 0 ∨ mx < 0 ∨ (s.cfgMode.getLsbD 0 = true ∧ mx = 0) ∨ m = mx ∨
          (s.cfgMode.getLsbD 0 = true ∧ m = 0 ∧ mx / sc = 1 / 10 ^ 9))) →
    ∃ t, exec .cfg s = .next t ∧ t = { s with act := none, lut := none, status := t.status } ∧
      RefuseReport s.status t.status

/-- R134, R135: SFWD without a valid configuration reports NoConfig; with one it completes, and RESULT is the level of the
sample: 0 for the invalid sample, else 1530 times the clamped position between the bounds, rounded. -/
def Obligations.SfwdGivesTheLevel : Prop :=
  ∀ (d : Sample) (s : State), s.Inv →
    (s.status.getLsbD 0 = false →
      ∃ t, exec (.sfwd d) s = .next t ∧ t = { s with status := t.status } ∧ ErrReport 4 s.status t.status) ∧
    (∀ act, s.status.getLsbD 0 = true → s.act = some act →
      ∃ t, exec (.sfwd d) s = .next t ∧ t = { s with result := t.result, status := t.status } ∧
        OkReport s.status t.status ∧ t.result.toNat = scaleFwd act d ∧ ForwardLevel act d (scaleFwd act d) ∧
        t.result.toNat ≤ 1530)

/-- R136, R137: SINV without a valid configuration reports NoConfig; with one it completes, and RESULT is the sample of the
level: 0 for level 0 and every level above 1530, else the rounded depth, saturated at 65535. -/
def Obligations.SinvGivesTheSample : Prop :=
  ∀ (l : Sample) (s : State), s.Inv →
    (s.status.getLsbD 0 = false →
      ∃ t, exec (.sinv l) s = .next t ∧ t = { s with status := t.status } ∧ ErrReport 4 s.status t.status) ∧
    (∀ act, s.status.getLsbD 0 = true → s.act = some act →
      ∃ t, exec (.sinv l) s = .next t ∧ t = { s with result := t.result, status := t.status } ∧
        OkReport s.status t.status ∧ t.result.toNat = (scaleInv act l.toNat).toNat ∧
        InverseSample act l.toNat (scaleInv act l.toNat))

/-- R138: with lo < hi every sample up to lo gives level 0, every sample from hi on gives 1530, and in between the level
does not decrease with depth, in linear and in inverse mode alike; with lo > hi the orientation is reversed. -/
def Obligations.ForwardMapSaturatesAndIsMonotone : Prop :=
  ∀ (lo hi : Rat) (act : Act),
    (act = ⟨lo, hi, hi - lo, false⟩ ∧ 0 ≤ lo ∧ 0 ≤ hi) ∨
      (act = ⟨1 / lo, 1 / hi, 1 / hi - 1 / lo, true⟩ ∧ 0 < lo ∧ 0 < hi) →
    (lo < hi →
      (∀ d : Sample, 1 ≤ d.toNat → (d.toNat : Rat) ≤ lo → scaleFwd act d = 0) ∧
      (∀ d : Sample, hi ≤ (d.toNat : Rat) → scaleFwd act d = 1530) ∧
      (∀ d e : Sample, lo ≤ (d.toNat : Rat) → d.toNat ≤ e.toNat → (e.toNat : Rat) ≤ hi →
        scaleFwd act d ≤ scaleFwd act e)) ∧
    (hi < lo →
      (∀ d : Sample, lo ≤ (d.toNat : Rat) → scaleFwd act d = 0) ∧
      (∀ d : Sample, 1 ≤ d.toNat → (d.toNat : Rat) ≤ hi → scaleFwd act d = 1530))

/-- R139: with the epsilon substituted (minimum 10^9 in the disparity domain, 0 < max_u < 10^9) every non-zero sample
encodes to level 1530, every level in 1..1529 decodes to 0, and level 1530 gives the upper bound. -/
def Obligations.EpsilonConfigurationDegenerates : Prop :=
  ∀ u : Rat, 0 < u → u < 10 ^ 9 →
    (∀ d : Sample, 1 ≤ d.toNat → scaleFwd ⟨10 ^ 9, u, u - 10 ^ 9, true⟩ d = 1530) ∧
    (∀ l, 1 ≤ l → l ≤ 1529 → scaleInv ⟨10 ^ 9, u, u - 10 ^ 9, true⟩ l = 0#16) ∧
    (∀ n : Nat, IsRounded (1 / u) n → (scaleInv ⟨10 ^ 9, u, u - 10 ^ 9, true⟩ 1530).toNat = min n 65535)

/-- R140: under an active configuration the two maps are well defined: the range is not zero, the depth of every level in
1..1530 is a convex combination of the bounds, not negative, and positive in inverse mode, and every argument of the two
roundings is not negative. -/
def Obligations.ScalerMapsAreWellDefined : Prop :=
  ∀ (s : State) (act : Act), s.Inv → s.act = some act →
    act.rangeU ≠ 0 ∧
    (∀ l, 1 ≤ l → l ≤ 1530 →
      levelDepth act l = act.minU * (1 - (l : Rat) / 1530) + act.maxU * ((l : Rat) / 1530) ∧
        0 ≤ levelDepth act l ∧ (act.inverse = true → 0 < levelDepth act l) ∧ 0 ≤ depthOfLevel act l) ∧
    ∀ q : Rat, 0 ≤ 1530 * clamp01 q ∧ 1530 * clamp01 q ≤ 1530

/-! ### Pixels -/

/-- R150, R151: PENC without a valid configuration reports NoConfig; with one it completes, RESULT is the code point of the
sample's level, and it is SFWD followed by VENC of that level: the same RESULT, the same STATUS, nothing else changed. -/
def Obligations.PencIsSfwdThenVenc : Prop :=
  ∀ (d : Sample) (s : State), s.Inv →
    (s.status.getLsbD 0 = false →
      ∃ t, exec (.penc d) s = .next t ∧ t = { s with status := t.status } ∧ ErrReport 4 s.status t.status) ∧
    (s.status.getLsbD 0 = true →
      ∃ t u, exec (.penc d) s = .next t ∧ exec (.sfwd d) s = .next u ∧
        exec (.venc (BitVec.ofNat 16 u.result.toNat)) u = .next t ∧
        t = { s with result := t.result, status := t.status } ∧ OkReport s.status t.status ∧
        ∀ act, s.act = some act → t.result.toNat = (vEnc (scaleFwd act d)).r.toNat +
          256 * (vEnc (scaleFwd act d)).g.toNat + 65536 * (vEnc (scaleFwd act d)).b.toNat)

/-- R152, R153: PDEC without a valid configuration reports NoConfig; with one it completes, RESULT is the sample of the
triple's level, and it is VDEC followed by SINV of that level: the same RESULT, the same STATUS, nothing else changed. -/
def Obligations.PdecIsVdecThenSinv : Prop :=
  ∀ (r g b : Byte) (s : State), s.Inv →
    (s.status.getLsbD 0 = false →
      ∃ t, exec (.pdec r g b) s = .next t ∧ t = { s with status := t.status } ∧ ErrReport 4 s.status t.status) ∧
    (s.status.getLsbD 0 = true →
      ∃ t u, exec (.pdec r g b) s = .next t ∧ exec (.vdec r g b) s = .next u ∧
        exec (.sinv (BitVec.ofNat 16 u.result.toNat)) u = .next t ∧
        t = { s with result := t.result, status := t.status } ∧ OkReport s.status t.status ∧
        ∀ act, s.act = some act → t.result.toNat = (scaleInv act (vDec ⟨r, g, b⟩)).toNat)

/-- R154: PENC of a sample and PDEC of the triple it gives return ScaleInv(ScaleFwd(d)); in the configuration
(0, 1530, 1530, linear) both maps are the identity on 0..1530, so that is d itself there, and 1530 above. -/
def Obligations.PixelRoundTrip : Prop :=
  ∀ (d : Sample) (s : State) (act : Act), s.Inv → s.act = some act →
    ∃ t u, exec (.penc d) s = .next t ∧
      exec (.pdec (t.result.extractLsb' 0 8) (t.result.extractLsb' 8 8) (t.result.extractLsb' 16 8)) t = .next u ∧
      u.result.toNat = (scaleInv act (scaleFwd act d)).toNat ∧
      (act = ⟨0, 1530, 1530, false⟩ → u.result.toNat = min d.toNat 1530 ∧
        (d.toNat ≤ 1530 → scaleFwd act d = d.toNat ∧ scaleInv act d.toNat = d))

/-! ### Images -/

/-- R158, R159, R160: IENC on an accepted source with both extents admitted completes: every pixel of the destination is
the code point of the level of the same source pixel as it was before the operation, also where the extents overlap; the
destination descriptor takes the source size and type U8C3; no byte outside the destination extent changes. -/
def Obligations.IencEncodesEveryPixel : Prop :=
  ∀ (s : State) (act : Act), s.Inv → s.act = some act → PassReady s 1 2 3 → SourceAdmitted s 2 → DestAdmitted s 3 →
    ∃ t, exec .ienc s = .next t ∧
      t = { s with mem := t.mem, dstDim := s.srcDim, dstFmt := t.dstFmt, status := t.status } ∧
      t.dstFmt.toNat = 2 ∧ OkReport s.status t.status ∧ Memory.wf t.mem = true ∧
      (∀ k, k < pixelCount s → ∃ l, ForwardLevel act (sampleAt s.mem (s.srcAddr.toNat + 2 * k)) l ∧
        tripleAt t.mem (s.dstAddr.toNat + 3 * k) = vEnc l) ∧
      ∀ a, a < s.dstAddr.toNat ∨ s.dstAddr.toNat + 3 * pixelCount s ≤ a → Memory.read t.mem a = Memory.read s.mem a

/-- R163, R164, R165: IDEC on an accepted source with both extents admitted completes: every sample of the destination is
the depth of the level of the same source pixel as it was before the operation, also where the extents overlap; the
destination descriptor takes the source size and type U16C1; no byte outside the destination extent changes. -/
def Obligations.IdecDecodesEveryPixel : Prop :=
  ∀ (s : State) (act : Act), s.Inv → s.act = some act → PassReady s 2 3 2 → SourceAdmitted s 3 → DestAdmitted s 2 →
    ∃ t, exec .idec s = .next t ∧
      t = { s with mem := t.mem, dstDim := s.srcDim, dstFmt := t.dstFmt, status := t.status } ∧
      t.dstFmt.toNat = 1 ∧ OkReport s.status t.status ∧ Memory.wf t.mem = true ∧
      (∀ k, k < pixelCount s → InverseSample act (vDec (tripleAt s.mem (s.srcAddr.toNat + 3 * k)))
        (sampleAt t.mem (s.dstAddr.toNat + 2 * k))) ∧
      ∀ a, a < s.dstAddr.toNat ∨ s.dstAddr.toNat + 2 * pixelCount s ≤ a → Memory.read t.mem a = Memory.read s.mem a

/-- R156, R162, R181: an image operation with a valid configuration whose source is of the wrong type or empty, or whose
source or destination extent passes 2^32, is a no-op that reports InvalidInput; without a valid configuration NoConfig
is reported instead, whatever the descriptors. -/
def Obligations.ImagePassRefusesBadDescriptors : Prop :=
  ∀ s : State, s.Inv →
    (s.status.getLsbD 0 = true → ¬ PassReady s 1 2 3 →
      ∃ t, exec .ienc s = .next t ∧ t = { s with status := t.status } ∧ ErrReport 1 s.status t.status) ∧
    (s.status.getLsbD 0 = true → ¬ PassReady s 2 3 2 →
      ∃ t, exec .idec s = .next t ∧ t = { s with status := t.status } ∧ ErrReport 1 s.status t.status) ∧
    (s.status.getLsbD 0 = false → ∀ i ∈ [Instr.ienc, Instr.idec],
      ∃ t, exec i s = .next t ∧ t = { s with status := t.status } ∧ ErrReport 4 s.status t.status)

/-- A source byte that is not admitted for read makes the operation report BusError and write nothing. With the source
read, a destination byte that is not admitted for write makes it report BusError: the descriptors stay, and no byte outside
the destination extent is written (R64, R186). The form of what the write phase leaves is the model's choice (log 4): each
admitted byte of the extent holds the free value Config.freeByte, the counter draws advances by one, and a byte of the extent
that is not admitted keeps its value. -/
def Obligations.BusErrorsFollowTheirPhase : Prop :=
  ∀ (s : State) (x : Instr × Nat × Nat × Nat), x ∈ [(.ienc, 1, 2, 3), (.idec, 2, 3, 2)] → s.Inv →
    s.status.getLsbD 0 = true → PassReady s x.2.1 x.2.2.1 x.2.2.2 →
    (¬ SourceAdmitted s x.2.2.1 →
      ∃ t, exec x.1 s = .next t ∧ t = { s with status := t.status } ∧ ErrReport 6 s.status t.status) ∧
    (SourceAdmitted s x.2.2.1 → ¬ DestAdmitted s x.2.2.2 →
      ∃ t, exec x.1 s = .next t ∧ t = { s with mem := t.mem, draws := s.draws + 1, status := t.status } ∧
        ErrReport 6 s.status t.status ∧ Memory.wf t.mem = true ∧
        ∀ a, Memory.read t.mem a =
          if s.dstAddr.toNat ≤ a ∧ a < s.dstAddr.toNat + x.2.2.2 * pixelCount s ∧ memAdmit s.platform a .write = true
          then Config.freeByte s.draws a else Memory.read s.mem a)

/-- R168: IENC from a depth image to a colour image, then IDEC from that colour image (the host has written only the
descriptors in between), gives ScaleInv(ScaleFwd(D[k])) for every pixel and the size of the first image; in the
configuration (0, 1530, 1530, linear) every sample in 0..1530 comes back exactly. -/
def Obligations.ImageRoundTrip : Prop :=
  ∀ (s : State) (act : Act) (dst2 : Word), s.Inv → s.act = some act → PassReady s 1 2 3 → SourceAdmitted s 2 →
    DestAdmitted s 3 → DestAdmitted { s with srcAddr := s.dstAddr, dstAddr := dst2 } 2 →
    SourceAdmitted { s with srcAddr := s.dstAddr } 3 → dst2.toNat + 2 * pixelCount s ≤ 2 ^ 32 →
    ∃ t u, exec .ienc s = .next t ∧
      exec .idec { t with srcAddr := t.dstAddr, srcDim := t.dstDim, srcFmt := t.dstFmt, dstAddr := dst2 } = .next u ∧
      u.dstDim = s.srcDim ∧ statusLast u.status = 0#4 ∧
      ∀ k, k < pixelCount s →
        sampleAt u.mem (dst2.toNat + 2 * k) =
          scaleInv act (scaleFwd act (sampleAt s.mem (s.srcAddr.toNat + 2 * k))) ∧
        (act = ⟨0, 1530, 1530, false⟩ → (sampleAt s.mem (s.srcAddr.toNat + 2 * k)).toNat ≤ 1530 →
          sampleAt u.mem (dst2.toNat + 2 * k) = sampleAt s.mem (s.srcAddr.toNat + 2 * k))

/-! ### Memory -/

/-- R62: MemRead of one or two bytes is their little-endian value when every byte is admitted for read, and a bus error
when one is not. -/
def Obligations.MemReadIsLittleEndian : Prop :=
  ∀ (p : Platform) (m : Memory) (a n : Nat), n = 1 ∨ n = 2 → a + n ≤ 2 ^ 32 →
    ((∀ x, a ≤ x → x < a + n → memAdmit p x .read = true) →
      memRead p m a n = some (∑ i ∈ Finset.range n, (Memory.read m (a + i)).toNat * 256 ^ i)) ∧
    ((∃ x, a ≤ x ∧ x < a + n ∧ memAdmit p x .read = false) → memRead p m a n = none)

/-- R63: MemWrite of one or two bytes stores byte i of the value at addr + i and no other byte when every byte is admitted
for write, and is a bus error that writes nothing when one is not. -/
def Obligations.MemWriteStoresItsBytes : Prop :=
  ∀ (p : Platform) (m : Memory) (a n v : Nat), Memory.wf m = true → n = 1 ∨ n = 2 → a + n ≤ 2 ^ 32 → v < 256 ^ n →
    ((∀ x, a ≤ x → x < a + n → memAdmit p x .write = true) →
      ∃ m', memWrite p m a n v = some m' ∧ Memory.wf m' = true ∧
        (∀ i, i < n → (Memory.read m' (a + i)).toNat = v / 256 ^ i % 256) ∧
        ∀ x, x < a ∨ a + n ≤ x → Memory.read m' x = Memory.read m x) ∧
    ((∃ x, a ≤ x ∧ x < a + n ∧ memAdmit p x .write = false) → memWrite p m a n v = none)

/-- On no platform is a byte of HUEC's own register window admitted (R61), nor an address outside the 32-bit space (R60).
That the window's addresses are taken as numbers of the memory port on every platform, also where the two address spaces are
separate buses, and without wrap at the top, is the model's choice (log 9), as is the base's width of 32 bits (log 16). -/
def Obligations.RegisterWindowIsNeverAdmitted : Prop :=
  ∀ (p : Platform) (a : Nat) (k : AccessKind),
    (p.hueBase.toNat ≤ a ∧ a < p.hueBase.toNat + 0x34) ∨ 2 ^ 32 ≤ a → memAdmit p a k = false

/-- Memory in canonical form is determined by what its addresses read as: equal contents are equal data. -/
def Obligations.CanonicalMemoryIsItsContents : Prop :=
  ∀ m m' : Memory, Memory.wf m = true → Memory.wf m' = true → (∀ a, Memory.read m a = Memory.read m' a) → m = m'

/-- R71: the order in which distinct destination bytes are written is not observable: every order leaves the same
memory. -/
def Obligations.WriteOrderIsUnobservable : Prop :=
  ∀ (m : Memory) (xs ys : List (Nat × Byte)), Memory.wf m = true → (∀ x ∈ xs, x.1 < 2 ^ 32) →
    (xs.map Prod.fst).Nodup → xs.Perm ys →
    xs.foldl (fun m x => Memory.write m x.1 x.2) m = ys.foldl (fun m x => Memory.write m x.1 x.2) m

/-! ### The whole machine -/

/-- R22, R25, R33, R37, R39, R60: what an operation can write. No operation changes a staging register, the source
descriptor, DST_ADDR, the platform, the pending actions or the host's read data; only CFG writes ACT, LUT, VALID and
EPS_SUB; only the scalar operations write RESULT; only IENC and IDEC write memory and the destination descriptor. -/
def Obligations.OperationsWriteOnlyTheirState : Prop :=
  ∀ (i : Instr) (s t : State), exec i s = .next t →
    (t.cfgMinM = s.cfgMinM ∧ t.cfgMaxM = s.cfgMaxM ∧ t.cfgScale = s.cfgScale ∧ t.cfgMode = s.cfgMode ∧
      t.srcAddr = s.srcAddr ∧ t.srcDim = s.srcDim ∧ t.srcFmt = s.srcFmt ∧ t.dstAddr = s.dstAddr ∧
      t.platform = s.platform ∧ t.host = s.host ∧ t.readData = s.readData) ∧
    (i ≠ .cfg → t.act = s.act ∧ t.lut = s.lut ∧ t.status.getLsbD 0 = s.status.getLsbD 0 ∧
      t.status.getLsbD 1 = s.status.getLsbD 1) ∧
    (i = .cfg ∨ usesMemory i = true → t.result = s.result) ∧
    (usesMemory i = false → (∀ a, Memory.read t.mem a = Memory.read s.mem a) ∧ t.mem = s.mem ∧ t.dstDim = s.dstDim ∧
      t.dstFmt = s.dstFmt ∧ t.draws = s.draws)

/-- R60: the seven operations other than IENC and IDEC make no memory access: what memory holds changes nothing of what
they do, and they leave it as it is. -/
def Obligations.ScalarOperationsIgnoreMemory : Prop :=
  ∀ (i : Instr) (s : State) (m : Memory), usesMemory i = false →
    exec i { s with mem := m } = mapNext (fun t => { t with mem := m }) (exec i s)

/-- R27, R211: the staging registers reach no operation but CFG: between two CFG operations changing them changes
nothing of what an operation does. -/
def Obligations.StagingReachesOnlyCfg : Prop :=
  ∀ (i : Instr) (s : State) (mn mx sc md : Word), i ≠ .cfg →
    exec i { s with cfgMinM := mn, cfgMaxM := mx, cfgScale := sc, cfgMode := md } =
      mapNext (fun t => { t with cfgMinM := mn, cfgMaxM := mx, cfgScale := sc, cfgMode := md }) (exec i s)

/-- The state after Reset meets the invariant, on every platform and with any memory in canonical form. -/
def Obligations.ResetMeetsTheInvariant : Prop :=
  State.Inv State.reset ∧ ∀ (p : Platform) (m : Memory), Memory.wf m = true → State.Inv (State.resetOn p m)

/-- R24, R28, R31, R38, R40, R44 to R46, R180: every step keeps the invariant: reserved bits read 0, LAST is a code of
R180, ACT and LUT have a value exactly while VALID = 1, ACT satisfies R38, LUT[v] = VEnc(v), EPS_SUB tells of a
substitution, and memory keeps its canonical form. -/
def Obligations.StepKeepsTheInvariant : Prop :=
  ∀ s t : State, s.Inv → step s = .next t → t.Inv

/-- R45, R214: in a state that meets the invariant every operation completes, and no step ends in a fault. -/
def Obligations.EveryOperationCompletes : Prop :=
  ∀ s : State, s.Inv → (∀ i, ∃ t, exec i s = .next t) ∧ ∀ r, step s ≠ .fault r

/-- R44, R45 (the named stop is the model's choice, log 3): an operation ends in a fault exactly where it would read ACT
or LUT while VALID = 1 and it has no value, which is in no state that meets the invariant. -/
def Obligations.FaultOnlyWithoutContext : Prop :=
  ∀ (i : Instr) (s : State) (r : Fault),
    exec i s = .fault r ↔
      r = .contextUnspecified ∧ needsConfig i = true ∧ s.status.getLsbD 0 = true ∧
        (s.act = none ∨ (s.lut = none ∧ ((∃ d, i = .penc d) ∨ i = .ienc)))
end

