-- ==== Sys2Proof/Laws/Encoding.lean ====
section
/-! SUPPORT. Command words and their fields as numbers: what each field of a word is (R81, R83, R84) and what each format
puts together (R89). -/

namespace Sys2Proof.Laws

open Sys2Proof

theorem fieldOp_toNat (w : Word) : (fieldOp w).toNat = w.toNat % 256 := by
  simp [fieldOp, BitVec.extractLsb'_toNat]

theorem fieldV16_toNat (w : Word) : (fieldV16 w).toNat = w.toNat / 256 % 65536 := by
  simp [fieldV16, BitVec.extractLsb'_toNat, Nat.shiftRight_eq_div_pow]

theorem fieldR_toNat (w : Word) : (fieldR w).toNat = w.toNat / 256 % 256 := by
  simp [fieldR, BitVec.extractLsb'_toNat, Nat.shiftRight_eq_div_pow]

theorem fieldG_toNat (w : Word) : (fieldG w).toNat = w.toNat / 65536 % 256 := by
  simp [fieldG, BitVec.extractLsb'_toNat, Nat.shiftRight_eq_div_pow]

theorem fieldB_toNat (w : Word) : (fieldB w).toNat = w.toNat / 16777216 % 256 := by
  simp [fieldB, BitVec.extractLsb'_toNat, Nat.shiftRight_eq_div_pow]

theorem fieldPay_toNat (w : Word) : (fieldPay w).toNat = w.toNat / 256 % 16777216 := by
  simp [fieldPay, BitVec.extractLsb'_toNat, Nat.shiftRight_eq_div_pow]

theorem encodeN_toNat (op : Byte) : (encodeN op).toNat = op.toNat := by
  simp only [encodeN, BitVec.toNat_append]
  simp

theorem encodeH_toNat (op : Byte) (v : Sample) : (encodeH op v).toNat = op.toNat + 256 * v.toNat := by
  have h1 := op.isLt
  have h2 := v.isLt
  simp only [encodeH, BitVec.toNat_append]
  rw [Nat.shiftLeft_eq, Nat.shiftLeft_eq, Nat.mul_comm, Nat.mul_comm _ (2 ^ 16), ← Nat.two_pow_add_eq_or_of_lt h2,
    ← Nat.two_pow_add_eq_or_of_lt h1]
  simp
  omega

theorem encodeT_toNat (op r g b : Byte) :
    (encodeT op r g b).toNat = op.toNat + 256 * r.toNat + 65536 * g.toNat + 16777216 * b.toNat := by
  have h1 := op.isLt
  have h2 := r.isLt
  have h3 := g.isLt
  simp only [encodeT, BitVec.toNat_append]
  rw [Nat.shiftLeft_eq, Nat.shiftLeft_eq, Nat.shiftLeft_eq, Nat.mul_comm, Nat.mul_comm _ (2 ^ 8),
    Nat.mul_comm _ (2 ^ 8), ← Nat.two_pow_add_eq_or_of_lt h3, ← Nat.two_pow_add_eq_or_of_lt h2,
    ← Nat.two_pow_add_eq_or_of_lt h1]
  omega

end Sys2Proof.Laws
end

