-- ==== Sys2Proof/Laws/State.lean ====
section
/-! SUPPORT. One lemma per field per update of the state, true by `rfl`: what each shared update leaves of the fields it
does not write, and the value of a field it does write. Later proofs never unfold a record update. -/

namespace Sys2Proof.Machine

/-! ### `raiseError` -/

@[simp] theorem raiseError_status (e : ErrorKind) (s : State) : (raiseError e s).status = setLast (setBit s.status (stickyBit e) true) (errorCode e) := rfl
@[simp] theorem raiseError_result (e : ErrorKind) (s : State) : (raiseError e s).result = s.result := rfl
@[simp] theorem raiseError_cfgMinM (e : ErrorKind) (s : State) : (raiseError e s).cfgMinM = s.cfgMinM := rfl
@[simp] theorem raiseError_cfgMaxM (e : ErrorKind) (s : State) : (raiseError e s).cfgMaxM = s.cfgMaxM := rfl
@[simp] theorem raiseError_cfgScale (e : ErrorKind) (s : State) : (raiseError e s).cfgScale = s.cfgScale := rfl
@[simp] theorem raiseError_cfgMode (e : ErrorKind) (s : State) : (raiseError e s).cfgMode = s.cfgMode := rfl
@[simp] theorem raiseError_srcAddr (e : ErrorKind) (s : State) : (raiseError e s).srcAddr = s.srcAddr := rfl
@[simp] theorem raiseError_srcDim (e : ErrorKind) (s : State) : (raiseError e s).srcDim = s.srcDim := rfl
@[simp] theorem raiseError_srcFmt (e : ErrorKind) (s : State) : (raiseError e s).srcFmt = s.srcFmt := rfl
@[simp] theorem raiseError_dstAddr (e : ErrorKind) (s : State) : (raiseError e s).dstAddr = s.dstAddr := rfl
@[simp] theorem raiseError_dstDim (e : ErrorKind) (s : State) : (raiseError e s).dstDim = s.dstDim := rfl
@[simp] theorem raiseError_dstFmt (e : ErrorKind) (s : State) : (raiseError e s).dstFmt = s.dstFmt := rfl
@[simp] theorem raiseError_act (e : ErrorKind) (s : State) : (raiseError e s).act = s.act := rfl
@[simp] theorem raiseError_lut (e : ErrorKind) (s : State) : (raiseError e s).lut = s.lut := rfl
@[simp] theorem raiseError_mem (e : ErrorKind) (s : State) : (raiseError e s).mem = s.mem := rfl
@[simp] theorem raiseError_platform (e : ErrorKind) (s : State) : (raiseError e s).platform = s.platform := rfl
@[simp] theorem raiseError_host (e : ErrorKind) (s : State) : (raiseError e s).host = s.host := rfl
@[simp] theorem raiseError_readData (e : ErrorKind) (s : State) : (raiseError e s).readData = s.readData := rfl
@[simp] theorem raiseError_draws (e : ErrorKind) (s : State) : (raiseError e s).draws = s.draws := rfl

/-! ### `reportOk` -/

@[simp] theorem reportOk_status (s : State) : (reportOk s).status = setLast s.status 0 := rfl
@[simp] theorem reportOk_result (s : State) : (reportOk s).result = s.result := rfl
@[simp] theorem reportOk_cfgMinM (s : State) : (reportOk s).cfgMinM = s.cfgMinM := rfl
@[simp] theorem reportOk_cfgMaxM (s : State) : (reportOk s).cfgMaxM = s.cfgMaxM := rfl
@[simp] theorem reportOk_cfgScale (s : State) : (reportOk s).cfgScale = s.cfgScale := rfl
@[simp] theorem reportOk_cfgMode (s : State) : (reportOk s).cfgMode = s.cfgMode := rfl
@[simp] theorem reportOk_srcAddr (s : State) : (reportOk s).srcAddr = s.srcAddr := rfl
@[simp] theorem reportOk_srcDim (s : State) : (reportOk s).srcDim = s.srcDim := rfl
@[simp] theorem reportOk_srcFmt (s : State) : (reportOk s).srcFmt = s.srcFmt := rfl
@[simp] theorem reportOk_dstAddr (s : State) : (reportOk s).dstAddr = s.dstAddr := rfl
@[simp] theorem reportOk_dstDim (s : State) : (reportOk s).dstDim = s.dstDim := rfl
@[simp] theorem reportOk_dstFmt (s : State) : (reportOk s).dstFmt = s.dstFmt := rfl
@[simp] theorem reportOk_act (s : State) : (reportOk s).act = s.act := rfl
@[simp] theorem reportOk_lut (s : State) : (reportOk s).lut = s.lut := rfl
@[simp] theorem reportOk_mem (s : State) : (reportOk s).mem = s.mem := rfl
@[simp] theorem reportOk_platform (s : State) : (reportOk s).platform = s.platform := rfl
@[simp] theorem reportOk_host (s : State) : (reportOk s).host = s.host := rfl
@[simp] theorem reportOk_readData (s : State) : (reportOk s).readData = s.readData := rfl
@[simp] theorem reportOk_draws (s : State) : (reportOk s).draws = s.draws := rfl

/-! ### `setResult` -/

@[simp] theorem setResult_status (v : Word) (s : State) : (setResult v s).status = s.status := rfl
@[simp] theorem setResult_result (v : Word) (s : State) : (setResult v s).result = v := rfl
@[simp] theorem setResult_cfgMinM (v : Word) (s : State) : (setResult v s).cfgMinM = s.cfgMinM := rfl
@[simp] theorem setResult_cfgMaxM (v : Word) (s : State) : (setResult v s).cfgMaxM = s.cfgMaxM := rfl
@[simp] theorem setResult_cfgScale (v : Word) (s : State) : (setResult v s).cfgScale = s.cfgScale := rfl
@[simp] theorem setResult_cfgMode (v : Word) (s : State) : (setResult v s).cfgMode = s.cfgMode := rfl
@[simp] theorem setResult_srcAddr (v : Word) (s : State) : (setResult v s).srcAddr = s.srcAddr := rfl
@[simp] theorem setResult_srcDim (v : Word) (s : State) : (setResult v s).srcDim = s.srcDim := rfl
@[simp] theorem setResult_srcFmt (v : Word) (s : State) : (setResult v s).srcFmt = s.srcFmt := rfl
@[simp] theorem setResult_dstAddr (v : Word) (s : State) : (setResult v s).dstAddr = s.dstAddr := rfl
@[simp] theorem setResult_dstDim (v : Word) (s : State) : (setResult v s).dstDim = s.dstDim := rfl
@[simp] theorem setResult_dstFmt (v : Word) (s : State) : (setResult v s).dstFmt = s.dstFmt := rfl
@[simp] theorem setResult_act (v : Word) (s : State) : (setResult v s).act = s.act := rfl
@[simp] theorem setResult_lut (v : Word) (s : State) : (setResult v s).lut = s.lut := rfl
@[simp] theorem setResult_mem (v : Word) (s : State) : (setResult v s).mem = s.mem := rfl
@[simp] theorem setResult_platform (v : Word) (s : State) : (setResult v s).platform = s.platform := rfl
@[simp] theorem setResult_host (v : Word) (s : State) : (setResult v s).host = s.host := rfl
@[simp] theorem setResult_readData (v : Word) (s : State) : (setResult v s).readData = s.readData := rfl
@[simp] theorem setResult_draws (v : Word) (s : State) : (setResult v s).draws = s.draws := rfl

/-! ### `hostStore` -/

@[simp] theorem hostStore_status (addr : Word) (b : Byte) (s : State) : (hostStore addr b s).status = s.status := rfl
@[simp] theorem hostStore_result (addr : Word) (b : Byte) (s : State) : (hostStore addr b s).result = s.result := rfl
@[simp] theorem hostStore_cfgMinM (addr : Word) (b : Byte) (s : State) : (hostStore addr b s).cfgMinM = s.cfgMinM := rfl
@[simp] theorem hostStore_cfgMaxM (addr : Word) (b : Byte) (s : State) : (hostStore addr b s).cfgMaxM = s.cfgMaxM := rfl
@[simp] theorem hostStore_cfgScale (addr : Word) (b : Byte) (s : State) : (hostStore addr b s).cfgScale = s.cfgScale := rfl
@[simp] theorem hostStore_cfgMode (addr : Word) (b : Byte) (s : State) : (hostStore addr b s).cfgMode = s.cfgMode := rfl
@[simp] theorem hostStore_srcAddr (addr : Word) (b : Byte) (s : State) : (hostStore addr b s).srcAddr = s.srcAddr := rfl
@[simp] theorem hostStore_srcDim (addr : Word) (b : Byte) (s : State) : (hostStore addr b s).srcDim = s.srcDim := rfl
@[simp] theorem hostStore_srcFmt (addr : Word) (b : Byte) (s : State) : (hostStore addr b s).srcFmt = s.srcFmt := rfl
@[simp] theorem hostStore_dstAddr (addr : Word) (b : Byte) (s : State) : (hostStore addr b s).dstAddr = s.dstAddr := rfl
@[simp] theorem hostStore_dstDim (addr : Word) (b : Byte) (s : State) : (hostStore addr b s).dstDim = s.dstDim := rfl
@[simp] theorem hostStore_dstFmt (addr : Word) (b : Byte) (s : State) : (hostStore addr b s).dstFmt = s.dstFmt := rfl
@[simp] theorem hostStore_act (addr : Word) (b : Byte) (s : State) : (hostStore addr b s).act = s.act := rfl
@[simp] theorem hostStore_lut (addr : Word) (b : Byte) (s : State) : (hostStore addr b s).lut = s.lut := rfl
@[simp] theorem hostStore_mem (addr : Word) (b : Byte) (s : State) : (hostStore addr b s).mem = Memory.write s.mem addr.toNat b := rfl
@[simp] theorem hostStore_platform (addr : Word) (b : Byte) (s : State) : (hostStore addr b s).platform = s.platform := rfl
@[simp] theorem hostStore_host (addr : Word) (b : Byte) (s : State) : (hostStore addr b s).host = s.host := rfl
@[simp] theorem hostStore_readData (addr : Word) (b : Byte) (s : State) : (hostStore addr b s).readData = s.readData := rfl
@[simp] theorem hostStore_draws (addr : Word) (b : Byte) (s : State) : (hostStore addr b s).draws = s.draws := rfl

/-! ### `resetEvent` -/

@[simp] theorem resetEvent_status (s : State) : (resetEvent s).status = 0#32 := rfl
@[simp] theorem resetEvent_result (s : State) : (resetEvent s).result = 0#32 := rfl
@[simp] theorem resetEvent_cfgMinM (s : State) : (resetEvent s).cfgMinM = 0#32 := rfl
@[simp] theorem resetEvent_cfgMaxM (s : State) : (resetEvent s).cfgMaxM = 0#32 := rfl
@[simp] theorem resetEvent_cfgScale (s : State) : (resetEvent s).cfgScale = 0#32 := rfl
@[simp] theorem resetEvent_cfgMode (s : State) : (resetEvent s).cfgMode = 0#32 := rfl
@[simp] theorem resetEvent_srcAddr (s : State) : (resetEvent s).srcAddr = 0#32 := rfl
@[simp] theorem resetEvent_srcDim (s : State) : (resetEvent s).srcDim = 0#32 := rfl
@[simp] theorem resetEvent_srcFmt (s : State) : (resetEvent s).srcFmt = 0#32 := rfl
@[simp] theorem resetEvent_dstAddr (s : State) : (resetEvent s).dstAddr = 0#32 := rfl
@[simp] theorem resetEvent_dstDim (s : State) : (resetEvent s).dstDim = 0#32 := rfl
@[simp] theorem resetEvent_dstFmt (s : State) : (resetEvent s).dstFmt = 0#32 := rfl
@[simp] theorem resetEvent_act (s : State) : (resetEvent s).act = none := rfl
@[simp] theorem resetEvent_lut (s : State) : (resetEvent s).lut = none := rfl
@[simp] theorem resetEvent_mem (s : State) : (resetEvent s).mem = s.mem := rfl
@[simp] theorem resetEvent_platform (s : State) : (resetEvent s).platform = s.platform := rfl
@[simp] theorem resetEvent_host (s : State) : (resetEvent s).host = s.host := rfl
@[simp] theorem resetEvent_readData (s : State) : (resetEvent s).readData = s.readData := rfl
@[simp] theorem resetEvent_draws (s : State) : (resetEvent s).draws = s.draws := rfl

/-! ### `State.resetOn` and `State.reset` -/

@[simp] theorem resetOn_status (p : Platform) (m : Memory) : (State.resetOn p m).status = 0#32 := rfl
@[simp] theorem resetOn_result (p : Platform) (m : Memory) : (State.resetOn p m).result = 0#32 := rfl
@[simp] theorem resetOn_cfgMinM (p : Platform) (m : Memory) : (State.resetOn p m).cfgMinM = 0#32 := rfl
@[simp] theorem resetOn_cfgMaxM (p : Platform) (m : Memory) : (State.resetOn p m).cfgMaxM = 0#32 := rfl
@[simp] theorem resetOn_cfgScale (p : Platform) (m : Memory) : (State.resetOn p m).cfgScale = 0#32 := rfl
@[simp] theorem resetOn_cfgMode (p : Platform) (m : Memory) : (State.resetOn p m).cfgMode = 0#32 := rfl
@[simp] theorem resetOn_srcAddr (p : Platform) (m : Memory) : (State.resetOn p m).srcAddr = 0#32 := rfl
@[simp] theorem resetOn_srcDim (p : Platform) (m : Memory) : (State.resetOn p m).srcDim = 0#32 := rfl
@[simp] theorem resetOn_srcFmt (p : Platform) (m : Memory) : (State.resetOn p m).srcFmt = 0#32 := rfl
@[simp] theorem resetOn_dstAddr (p : Platform) (m : Memory) : (State.resetOn p m).dstAddr = 0#32 := rfl
@[simp] theorem resetOn_dstDim (p : Platform) (m : Memory) : (State.resetOn p m).dstDim = 0#32 := rfl
@[simp] theorem resetOn_dstFmt (p : Platform) (m : Memory) : (State.resetOn p m).dstFmt = 0#32 := rfl
@[simp] theorem resetOn_act (p : Platform) (m : Memory) : (State.resetOn p m).act = none := rfl
@[simp] theorem resetOn_lut (p : Platform) (m : Memory) : (State.resetOn p m).lut = none := rfl
@[simp] theorem resetOn_mem (p : Platform) (m : Memory) : (State.resetOn p m).mem = m := rfl
@[simp] theorem resetOn_platform (p : Platform) (m : Memory) : (State.resetOn p m).platform = p := rfl
@[simp] theorem resetOn_host (p : Platform) (m : Memory) : (State.resetOn p m).host = [] := rfl
@[simp] theorem resetOn_readData (p : Platform) (m : Memory) : (State.resetOn p m).readData = 0#32 := rfl
@[simp] theorem resetOn_draws (p : Platform) (m : Memory) : (State.resetOn p m).draws = 0 := rfl

theorem reset_eq : State.reset = State.resetOn Config.platform [] := rfl

end Sys2Proof.Machine
end

