-- ==== Sys2Proof/Laws/Flags.lean ====
section
/-! SUPPORT. The bits of STATUS: what writing VALID, EPS_SUB, a sticky bit or LAST does to each field, and the two reports
(R190, R191) field by field. -/

namespace Sys2Proof.Machine

theorem setBit_getLsbD (w : Word) (i j : Nat) (b : Bool) (hj : j < 32) :
    (setBit w i b).getLsbD j = if j = i then b else w.getLsbD j := by
  cases b <;> by_cases h : j = i <;>
    simp [setBit, BitVec.getLsbD_or, BitVec.getLsbD_and, hj, h] <;> omega

theorem setLast_getLsbD (w : Word) (c j : Nat) (hj : j < 32) (hout : j < 16 ∨ 20 ≤ j) :
    (setLast w c).getLsbD j = w.getLsbD j := by
  interval_cases j <;> first | omega | simp [setLast]

theorem statusLast_setLast (w : Word) (c : Nat) : statusLast (setLast w c) = BitVec.ofNat 4 c := by
  ext i hi
  interval_cases i <;> simp [statusLast, setLast] <;>
    simp [← BitVec.getLsbD_eq_getElem, BitVec.getLsbD_ofNat]

theorem stickyBit_lt (e : ErrorKind) : stickyBit e < 16 := by cases e <;> decide

theorem stickyBit_ge (e : ErrorKind) : 4 ≤ stickyBit e := by cases e <;> decide

theorem stickyBit_injective {e f : ErrorKind} (h : stickyBit e = stickyBit f) : e = f := by
  cases e <;> cases f <;> first | rfl | simp [stickyBit, errorCode] at h

@[simp] theorem statusValid_setLast (w : Word) (c : Nat) : statusValid (setLast w c) = statusValid w :=
  setLast_getLsbD w c 0 (by omega) (by omega)

@[simp] theorem statusEpsSub_setLast (w : Word) (c : Nat) : statusEpsSub (setLast w c) = statusEpsSub w :=
  setLast_getLsbD w c 1 (by omega) (by omega)

@[simp] theorem statusSticky_setLast (w : Word) (c : Nat) (e : ErrorKind) :
    statusSticky (setLast w c) e = statusSticky w e := by
  have := stickyBit_lt e
  exact setLast_getLsbD w c _ (by omega) (by omega)

@[simp] theorem statusValid_setBit_sticky (w : Word) (e : ErrorKind) (b : Bool) :
    statusValid (setBit w (stickyBit e) b) = statusValid w := by
  have := stickyBit_ge e
  rw [statusValid, setBit_getLsbD _ _ _ _ (by omega), if_neg (by omega)]; rfl

@[simp] theorem statusEpsSub_setBit_sticky (w : Word) (e : ErrorKind) (b : Bool) :
    statusEpsSub (setBit w (stickyBit e) b) = statusEpsSub w := by
  have := stickyBit_ge e
  rw [statusEpsSub, setBit_getLsbD _ _ _ _ (by omega), if_neg (by omega)]; rfl

@[simp] theorem statusValid_setValid (w : Word) (b : Bool) : statusValid (setValid w b) = b := by
  rw [statusValid, setValid, setBit_getLsbD _ _ _ _ (by omega), if_pos rfl]

@[simp] theorem statusEpsSub_setEpsSub (w : Word) (b : Bool) : statusEpsSub (setEpsSub w b) = b := by
  rw [statusEpsSub, setEpsSub, setBit_getLsbD _ _ _ _ (by omega), if_pos rfl]

@[simp] theorem statusValid_setEpsSub (w : Word) (b : Bool) : statusValid (setEpsSub w b) = statusValid w := by
  rw [statusValid, setEpsSub, setBit_getLsbD _ _ _ _ (by omega), if_neg (by omega)]; rfl

/-- The error report leaves VALID as it was. -/
@[simp] theorem raiseError_valid (e : ErrorKind) (s : State) :
    statusValid (raiseError e s).status = statusValid s.status := by simp

/-- The error report leaves EPS_SUB as it was. -/
@[simp] theorem raiseError_epsSub (e : ErrorKind) (s : State) :
    statusEpsSub (raiseError e s).status = statusEpsSub s.status := by simp

/-- The error report puts the error's code in LAST. -/
theorem raiseError_last (e : ErrorKind) (s : State) :
    statusLast (raiseError e s).status = BitVec.ofNat 4 (errorCode e) := statusLast_setLast _ _

/-- The success report puts 0 in LAST. -/
theorem reportOk_last (s : State) : statusLast (reportOk s).status = 0#4 := statusLast_setLast _ _

/-- A host write to STATUS touches no bit outside the sticky bits. -/
theorem statusHostWrite_getLsbD (w v : Word) (j : Nat) (hj : j < 32) (hout : j < 4 ∨ 10 ≤ j) :
    (statusHostWrite w v).getLsbD j = w.getLsbD j := by
  interval_cases j <;> first | omega | simp [statusHostWrite, stickyMask]

/-- A host write to STATUS clears a sticky bit exactly where it writes a 1. -/
theorem statusHostWrite_sticky (w v : Word) (j : Nat) (h4 : 4 ≤ j) (h9 : j ≤ 9) :
    (statusHostWrite w v).getLsbD j = (w.getLsbD j && !v.getLsbD j) := by
  interval_cases j <;> simp [statusHostWrite, stickyMask]

end Sys2Proof.Machine
end

