-- ==== Sys2Proof/Laws/Memory.lean ====
section
/-! SUPPORT. The laws of memory and of the memory port: read after write, the canonical form kept by every operation, and
what the multi-byte accesses of R62 to R64 do. -/

namespace Sys2Proof.Machine

/-! ### One byte -/

theorem Memory.wfFrom_cons {lo k : Nat} {v : Byte} {m : Memory} :
    Memory.wfFrom lo ((k, v) :: m) = true ↔
      lo ≤ k ∧ k < Config.addrSpace ∧ v ≠ Memory.unlisted ∧ Memory.wfFrom (k + 1) m = true := by
  simp [Memory.wfFrom, and_assoc]

theorem Memory.wfFrom_weaken {lo lo' : Nat} (h : lo' ≤ lo) :
    ∀ {m : Memory}, Memory.wfFrom lo m = true → Memory.wfFrom lo' m = true
  | [], _ => rfl
  | (k, v) :: m, hm => by
    rw [Memory.wfFrom_cons] at hm ⊢
    exact ⟨h.trans hm.1, hm.2⟩

theorem Memory.wf_of_wfFrom {lo : Nat} {m : Memory} (h : Memory.wfFrom lo m = true) : Memory.wf m = true :=
  Memory.wfFrom_weaken (Nat.zero_le lo) h

/-- An address below the first listed one reads as an unlisted address. -/
theorem Memory.read_below : ∀ {m : Memory} {lo a : Nat}, Memory.wfFrom lo m = true → a < lo →
    Memory.read m a = Memory.unlisted
  | [], _, _, _, _ => rfl
  | (k, v) :: m, lo, a, hm, ha => by
    rw [Memory.wfFrom_cons] at hm
    rw [Memory.read, if_neg (by omega), Memory.read_below hm.2.2.2 (by omega)]

theorem Memory.read_cell_append (a a' : Nat) (b : Byte) (m : Memory) (hm : Memory.read m a = Memory.unlisted) :
    Memory.read (Memory.cell a b ++ m) a' = if a' = a then b else Memory.read m a' := by
  unfold Memory.cell
  split
  · rename_i hb
    subst hb
    split
    · rename_i h; subst h; simpa using hm
    · rfl
  · by_cases h : a' = a
    · subst h; simp [Memory.read]
    · simp [Memory.read, h, Ne.symm h]

theorem Memory.read_write_from : ∀ {m : Memory} {lo : Nat}, Memory.wfFrom lo m = true → ∀ (a a' : Nat) (b : Byte),
    Memory.read (Memory.write m a b) a' = if a' = a then b else Memory.read m a'
  | [], _, _, a, a', b => by
    have := Memory.read_cell_append a a' b [] rfl
    simpa [Memory.write] using this
  | (k, v) :: m, lo, hm, a, a', b => by
    have hc := Memory.wfFrom_cons.1 hm
    unfold Memory.write
    split
    · rename_i h
      refine Memory.read_cell_append a a' b _ ?_
      rw [Memory.read, if_neg (by omega), Memory.read_below hc.2.2.2 (by omega)]
    · split
      · rename_i h
        subst h
        rw [Memory.read_cell_append _ _ _ _ (Memory.read_below hc.2.2.2 (by omega))]
        by_cases h : a' = a
        · simp [h]
        · simp [Memory.read, h, Ne.symm h]
      · by_cases h : k = a'
        · subst h
          simp only [Memory.read, if_true]
          rw [if_neg (by omega)]
        · simp only [Memory.read, h, if_false]
          exact Memory.read_write_from hc.2.2.2 a a' b

/-- Read after write: the written address gives the written byte, every other address what it gave before. -/
theorem Memory.read_write {m : Memory} (hm : Memory.wf m = true) (a a' : Nat) (b : Byte) :
    Memory.read (Memory.write m a b) a' = if a' = a then b else Memory.read m a' :=
  Memory.read_write_from hm a a' b

theorem Memory.wfFrom_cell_append {lo a : Nat} {b : Byte} {m : Memory} (hlo : lo ≤ a) (ha : a < Config.addrSpace)
    (hm : Memory.wfFrom (a + 1) m = true) : Memory.wfFrom lo (Memory.cell a b ++ m) = true := by
  unfold Memory.cell
  split
  · exact Memory.wfFrom_weaken (by omega) hm
  · rename_i hb
    exact Memory.wfFrom_cons.2 ⟨hlo, ha, hb, hm⟩

theorem Memory.wfFrom_write : ∀ {m : Memory} {lo a : Nat} (b : Byte), Memory.wfFrom lo m = true → lo ≤ a →
    a < Config.addrSpace → Memory.wfFrom lo (Memory.write m a b) = true
  | [], lo, a, b, _, hlo, ha => by
    have := Memory.wfFrom_cell_append (b := b) (m := []) hlo ha rfl
    simpa [Memory.write] using this
  | (k, v) :: m, lo, a, b, hm, hlo, ha => by
    have hc := Memory.wfFrom_cons.1 hm
    unfold Memory.write
    split
    · rename_i h
      exact Memory.wfFrom_cell_append hlo ha (Memory.wfFrom_cons.2 ⟨by omega, hc.2⟩)
    · split
      · rename_i h
        subst h
        exact Memory.wfFrom_cell_append hlo ha hc.2.2.2
      · exact Memory.wfFrom_cons.2 ⟨hc.1, hc.2.1, hc.2.2.1, Memory.wfFrom_write b hc.2.2.2 (by omega) ha⟩

/-- A write inside the address space keeps the canonical form. -/
theorem Memory.wf_write {m : Memory} {a : Nat} (b : Byte) (hm : Memory.wf m = true) (ha : a < Config.addrSpace) :
    Memory.wf (Memory.write m a b) = true :=
  Memory.wfFrom_write b hm (Nat.zero_le a) ha

/-! ### The admission predicate -/

/-- R61: the address space ends at 2^32. -/
theorem memAdmit_lt {p : Platform} {a : Nat} {k : AccessKind} (h : memAdmit p a k = true) : a < Config.addrSpace := by
  simp only [memAdmit, Bool.and_eq_true, decide_eq_true_eq] at h
  exact h.1.1

theorem admitsAll_iff (p : Platform) (k : AccessKind) : ∀ (a n : Nat),
    admitsAll p k a n = true ↔ ∀ x, a ≤ x → x < a + n → memAdmit p x k = true
  | a, 0 => by simp [admitsAll]; omega
  | a, n + 1 => by
    rw [admitsAll, Bool.and_eq_true, admitsAll_iff p k (a + 1) n]
    constructor
    · rintro ⟨h0, h1⟩ x hx hlt
      rcases Nat.eq_or_lt_of_le hx with rfl | hx
      · exact h0
      · exact h1 x hx (by omega)
    · exact fun h => ⟨h a le_rfl (by omega), fun x hx hlt => h x (by omega) (by omega)⟩

/-! ### Accesses of several bytes -/

theorem loadLE_one (m : Memory) (a : Nat) : loadLE m a 1 = (Memory.read m a).toNat := by simp [loadLE]

/-- R65: a sample is its low byte at the lower address. -/
theorem loadLE_two (m : Memory) (a : Nat) :
    loadLE m a 2 = (Memory.read m a).toNat + 256 * (Memory.read m (a + 1)).toNat := by simp [loadLE]

theorem wf_storeLE : ∀ {m : Memory} {a n v : Nat}, Memory.wf m = true → a + n ≤ Config.addrSpace →
    Memory.wf (storeLE m a n v) = true
  | _, _, 0, _, hm, _ => hm
  | m, a, n + 1, v, hm, h => by
    rw [storeLE]
    exact wf_storeLE (Memory.wf_write _ hm (by omega)) (by omega)

/-- R63: a store changes no byte outside its own. -/
theorem read_storeLE_outside : ∀ {m : Memory} {a n v x : Nat}, Memory.wf m = true → a + n ≤ Config.addrSpace →
    x < a ∨ a + n ≤ x → Memory.read (storeLE m a n v) x = Memory.read m x
  | _, _, 0, _, _, _, _, _ => rfl
  | m, a, n + 1, v, x, hm, h, hx => by
    rw [storeLE, read_storeLE_outside (Memory.wf_write _ hm (by omega)) (by omega) (by omega),
      Memory.read_write hm, if_neg (by omega)]

/-- R63: byte `i` of a store is `(v / 256^i) mod 256`. -/
theorem read_storeLE : ∀ {m : Memory} {a n v i : Nat}, Memory.wf m = true → a + n ≤ Config.addrSpace → i < n →
    Memory.read (storeLE m a n v) (a + i) = BitVec.ofNat 8 (v / 256 ^ i)
  | _, _, 0, _, _, _, _, h => absurd h (Nat.not_lt_zero _)
  | m, a, n + 1, v, 0, hm, h, _ => by
    rw [storeLE, read_storeLE_outside (Memory.wf_write _ hm (by omega)) (by omega) (by omega),
      Memory.read_write hm]
    simp
  | m, a, n + 1, v, i + 1, hm, h, hi => by
    have := read_storeLE (v := v / 256) (a := a + 1) (i := i) (n := n)
      (Memory.wf_write (m := m) (a := a) (BitVec.ofNat 8 v) hm (by omega)) (by omega) (by omega)
    rw [storeLE, show a + (i + 1) = a + 1 + i by omega, this, Nat.div_div_eq_div_mul, pow_succ, Nat.mul_comm]

/-- What a read access can answer. -/
theorem memRead_cases (p : Platform) (m : Memory) (a n : Nat) :
    (admitsAll p .read a n = true ∧ memRead p m a n = some (loadLE m a n)) ∨
      (admitsAll p .read a n = false ∧ memRead p m a n = none) := by
  cases h : admitsAll p .read a n <;> simp [memRead, h]

/-- What a write access can answer. -/
theorem memWrite_cases (p : Platform) (m : Memory) (a n v : Nat) :
    (admitsAll p .write a n = true ∧ memWrite p m a n v = some (storeLE m a n v)) ∨
      (admitsAll p .write a n = false ∧ memWrite p m a n v = none) := by
  cases h : admitsAll p .write a n <;> simp [memWrite, h]

/-- The bytes of an admitted access lie inside the address space. -/
theorem admitsAll_le {p : Platform} {k : AccessKind} {a n : Nat} (h : admitsAll p k a n = true) (hn : 0 < n) :
    a + n ≤ Config.addrSpace := by
  have := memAdmit_lt ((admitsAll_iff p k a n).1 h (a + n - 1) (by omega) (by omega))
  omega

/-! ### The write-phase bus error -/

theorem wf_scramble (p : Platform) (d : Nat) : ∀ {m : Memory} {a n : Nat}, Memory.wf m = true →
    Memory.wf (scramble p d m a n) = true
  | _, _, 0, hm => hm
  | m, a, n + 1, hm => by
    rw [scramble]
    split
    · rename_i h
      exact wf_scramble p d (Memory.wf_write _ hm (memAdmit_lt h))
    · exact wf_scramble p d hm

/-- R64: bytes outside the destination extent, and bytes of it that are not admitted, are never written; an admitted byte
of it takes a free value. -/
theorem read_scramble (p : Platform) (d : Nat) : ∀ {m : Memory} {a n : Nat} (x : Nat), Memory.wf m = true →
    Memory.read (scramble p d m a n) x =
      if a ≤ x ∧ x < a + n ∧ memAdmit p x .write = true then Config.freeByte d x else Memory.read m x
  | _, _, 0, x, _ => by rw [scramble, if_neg (by omega)]
  | m, a, n + 1, x, hm => by
    rw [scramble]
    split
    · rename_i h
      rw [read_scramble p d x (Memory.wf_write _ hm (memAdmit_lt h)), Memory.read_write hm]
      by_cases hx : x = a
      · subst hx
        simp [h]
      · have : (a + 1 ≤ x ∧ x < a + 1 + n ∧ memAdmit p x .write = true) ↔
            (a ≤ x ∧ x < a + (n + 1) ∧ memAdmit p x .write = true) :=
          ⟨fun h => ⟨by omega, by omega, h.2.2⟩, fun h => ⟨by omega, by omega, h.2.2⟩⟩
        simp only [this, hx, if_false]
    · rename_i h
      rw [read_scramble p d x hm]
      by_cases hx : x = a
      · subst hx
        simp [h]
      · have : (a + 1 ≤ x ∧ x < a + 1 + n ∧ memAdmit p x .write = true) ↔
            (a ≤ x ∧ x < a + (n + 1) ∧ memAdmit p x .write = true) :=
          ⟨fun h => ⟨by omega, by omega, h.2.2⟩, fun h => ⟨by omega, by omega, h.2.2⟩⟩
        simp only [this]

end Sys2Proof.Machine
end

