-- ==== Sys2Proof/Laws/Ops.lean ====
section
/-! SUPPORT. What the shared operations can answer: reading the active configuration and the table, pixels at the memory
port, the two phases of an image pass, and the pass as a whole. -/

namespace Sys2Proof.Machine

/-! ### The active configuration -/

/-- With a valid configuration, `withAct` runs the operation on its value. -/
theorem withAct_valid {s : State} {act : Act} (k : Act → Host.Outcome State Fault Refusal)
    (hv : statusValid s.status = true) (ha : s.act = some act) : withAct s k = k act := by
  simp [withAct, hv, ha]

/-- Without one, it reports NoConfig (R184). -/
theorem withAct_noConfig {s : State} (k : Act → Host.Outcome State Fault Refusal)
    (hv : statusValid s.status = false) : withAct s k = .next (raiseError .noConfig s) := by
  simp [withAct, hv]

/-- Everything `withAct` can answer. -/
theorem withAct_cases (s : State) (k : Act → Host.Outcome State Fault Refusal) :
    (statusValid s.status = false ∧ withAct s k = .next (raiseError .noConfig s)) ∨
      (∃ act, statusValid s.status = true ∧ s.act = some act ∧ withAct s k = k act) ∨
      (statusValid s.status = true ∧ s.act = none ∧ withAct s k = .fault .contextUnspecified) := by
  cases hv : statusValid s.status <;> cases ha : s.act <;> simp [withAct, hv, ha]

/-- With a table, `withLut` runs the operation on it. -/
theorem withLut_some {s : State} {lut : Lut} (k : Lut → Host.Outcome State Fault Refusal) (h : s.lut = some lut) :
    withLut s k = k lut := by
  simp [withLut, h]

/-- Everything `withLut` can answer. -/
theorem withLut_cases (s : State) (k : Lut → Host.Outcome State Fault Refusal) :
    (∃ lut, s.lut = some lut ∧ withLut s k = k lut) ∨
      (s.lut = none ∧ withLut s k = .fault .contextUnspecified) := by
  cases h : s.lut <;> simp [withLut, h]

/-- R132: the table CFG builds holds VEnc(v) at every index v in 0..1530. -/
theorem lutEntry_buildLut {v : Nat} (h : v ≤ Config.levelMax) : lutEntry buildLut v = vEnc v := by
  have hv : v < Config.lutSize := Nat.lt_succ_of_le h
  simp [lutEntry, buildLut, hv]

theorem length_buildLut : buildLut.length = Config.lutSize := by simp [buildLut]

/-! ### One pixel -/

theorem readSample_eq (p : Platform) (m : Memory) (a : Nat) :
    readSample p m a = if admitsAll p .read a 2 then some (BitVec.ofNat 16 (loadLE m a 2)) else none := by
  unfold readSample memRead
  split <;> rfl

theorem readTriple_eq (p : Platform) (m : Memory) (a : Nat) :
    readTriple p m a =
      if admitsAll p .read a 3 then
        some ⟨Memory.read m a, Memory.read m (a + 1), Memory.read m (a + 2)⟩
      else none := by
  unfold readTriple memRead
  simp only [admitsAll, Bool.and_true, loadLE_one, Nat.add_assoc, Nat.reduceAdd]
  cases memAdmit p a .read <;> cases memAdmit p (a + 1) .read <;> cases memAdmit p (a + 2) .read <;> simp

/-- A pixel writer of `esize` bytes: admitted, it writes exactly the bytes of its pixel; else it is a bus error. -/
structure PixelWriter {α : Type} (p : Platform) (wr : Memory → Nat → α → Option Memory) (esize : Nat)
    (bytes : α → Nat → Byte) : Prop where
  refuses : ∀ m a x, admitsAll p .write a esize = false → wr m a x = none
  writes  : ∀ m a x, Memory.wf m = true → admitsAll p .write a esize = true → ∃ m', wr m a x = some m' ∧
    Memory.wf m' = true ∧ (∀ i, i < esize → Memory.read m' (a + i) = bytes x i) ∧
    ∀ y, y < a ∨ a + esize ≤ y → Memory.read m' y = Memory.read m y

/-- Byte `i` of a sample in memory (R65). -/
def sampleByte (v : Sample) (i : Nat) : Byte := BitVec.ofNat 8 (v.toNat / 256 ^ i)

/-- Byte `i` of a triple in memory (R65). -/
def tripleByte (t : Triple) (i : Nat) : Byte := if i = 0 then t.r else if i = 1 then t.g else t.b

theorem writeSample_writer (p : Platform) : PixelWriter p (writeSample p) depthSize sampleByte where
  refuses m a x h := by simp only [depthSize] at h; simp [writeSample, memWrite, h]
  writes m a x hm h := by
    have hle := admitsAll_le h (by decide)
    simp only [depthSize] at h hle ⊢
    exact ⟨storeLE m a 2 x.toNat, by simp [writeSample, memWrite, h], wf_storeLE hm hle,
      fun i hi => read_storeLE hm hle hi, fun y hy => read_storeLE_outside hm hle hy⟩

theorem memWrite_one (p : Platform) (m : Memory) (a : Nat) (b : Byte) :
    memWrite p m a 1 b.toNat = if memAdmit p a .write then some (Memory.write m a b) else none := by
  simp [memWrite, admitsAll, storeLE]

theorem writeTriple_writer (p : Platform) : PixelWriter p (writeTriple p) colourSize tripleByte where
  refuses m a x h := by
    simp only [colourSize, admitsAll, Bool.and_true, Nat.add_assoc, Nat.reduceAdd] at h
    unfold writeTriple
    simp only [memWrite_one]
    cases h0 : memAdmit p a .write <;> cases h1 : memAdmit p (a + 1) .write <;>
      cases h2 : memAdmit p (a + 2) .write <;> simp_all
  writes m a x hm h := by
    have hle := admitsAll_le h (by decide)
    simp only [colourSize] at hle ⊢
    simp only [colourSize, admitsAll, Bool.and_true, Nat.add_assoc, Nat.reduceAdd, Bool.and_eq_true] at h
    have w1 := Memory.wf_write (a := a) x.r hm (by omega)
    have w2 := Memory.wf_write (a := a + 1) x.g w1 (by omega)
    have w3 := Memory.wf_write (a := a + 2) x.b w2 (by omega)
    refine ⟨_, by simp [writeTriple, memWrite_one, h.1, h.2.1, h.2.2], w3, fun i hi => ?_, fun y hy => ?_⟩
    · rw [Memory.read_write w2, Memory.read_write w1, Memory.read_write hm]
      interval_cases i <;> simp [tripleByte]
    · rw [Memory.read_write w2, Memory.read_write w1, Memory.read_write hm, if_neg (by omega), if_neg (by omega),
        if_neg (by omega)]

/-! ### The two phases of a pass -/

/-- The read phase succeeds exactly when every pixel can be read, and then gives them in order (R157, R163). -/
theorem readPixels_some {α : Type} {rd : Nat → Option α} {esize : Nat} (x : Nat → α) : ∀ {a n : Nat},
    (∀ k, k < n → rd (a + esize * k) = some (x k)) → readPixels rd esize a n = some ((List.range n).map x)
  | _, 0, _ => rfl
  | a, n + 1, h => by
    have h0 := h 0 (by omega)
    have ih := readPixels_some (rd := rd) (esize := esize) (a := a + esize) (n := n) (fun k => x (k + 1))
      (fun k hk => by
        have := h (k + 1) (by omega)
        rwa [Nat.mul_succ, Nat.add_comm (esize * k), ← Nat.add_assoc] at this)
    rw [readPixels, ih, show rd a = some (x 0) by simpa using h0]
    simp [List.range_succ_eq_map, List.map_map, Function.comp_def]

/-- A pixel that cannot be read makes the read phase a bus error. -/
theorem readPixels_none {α : Type} {rd : Nat → Option α} {esize : Nat} : ∀ {a n k : Nat},
    k < n → rd (a + esize * k) = none → readPixels rd esize a n = none
  | _, 0, _, h, _ => absurd h (Nat.not_lt_zero _)
  | a, n + 1, 0, _, h => by
    rw [readPixels, show rd a = none by simpa using h]
  | a, n + 1, k + 1, hk, h => by
    have := readPixels_none (rd := rd) (esize := esize) (a := a + esize) (n := n) (k := k) (by omega)
      (by rwa [Nat.mul_succ, Nat.add_comm (esize * k), ← Nat.add_assoc] at h)
    rw [readPixels, this]
    cases rd a <;> rfl

/-- The write phase on an admitted extent: every pixel's bytes at its place, nothing else changed (R158, R163). -/
theorem writePixels_some {α : Type} {p : Platform} {wr : Memory → Nat → α → Option Memory} {esize : Nat}
    {bytes : α → Nat → Byte} (W : PixelWriter p wr esize bytes) : ∀ (xs : List α) {m : Memory} {a : Nat},
    Memory.wf m = true → (∀ y, a ≤ y → y < a + esize * xs.length → memAdmit p y .write = true) →
    ∃ m', writePixels wr esize m a xs = some m' ∧ Memory.wf m' = true ∧
      (∀ k x, xs[k]? = some x → ∀ i, i < esize → Memory.read m' (a + esize * k + i) = bytes x i) ∧
      ∀ y, y < a ∨ a + esize * xs.length ≤ y → Memory.read m' y = Memory.read m y
  | [], m, a, hm, _ => ⟨m, rfl, hm, by simp, fun _ _ => rfl⟩
  | x :: xs, m, a, hm, h => by
    rw [List.length_cons, Nat.mul_succ] at h
    obtain ⟨m1, e1, w1, r1, o1⟩ := W.writes m a x hm
      ((admitsAll_iff _ _ _ _).2 fun y hy hlt => h y hy (by omega))
    obtain ⟨m2, e2, w2, r2, o2⟩ := writePixels_some W xs (a := a + esize) w1
      (fun y hy hlt => h y (by omega) (by omega))
    refine ⟨m2, by rw [writePixels, e1]; exact e2, w2, ?_, ?_⟩
    · rintro (_ | k) z hz i hi
      · obtain rfl : x = z := by simpa using hz
        rw [o2 _ (by omega)]
        simpa using r1 i hi
      · have := r2 k z (by simpa using hz) i hi
        rwa [Nat.mul_succ, Nat.add_comm (esize * k), ← Nat.add_assoc a]
    · intro y hy
      rw [List.length_cons, Nat.mul_succ] at hy
      rw [o2 y (by omega), o1 y (by omega)]

/-- A byte of the destination extent that is not admitted makes the write phase a bus error. -/
theorem writePixels_none {α : Type} {p : Platform} {wr : Memory → Nat → α → Option Memory} {esize : Nat}
    {bytes : α → Nat → Byte} (W : PixelWriter p wr esize bytes) : ∀ (xs : List α) {m : Memory} {a y : Nat},
    Memory.wf m = true → a ≤ y → y < a + esize * xs.length → memAdmit p y .write = false →
    writePixels wr esize m a xs = none
  | [], _, _, _, _, hy, hlt, _ => by simp at hlt; omega
  | x :: xs, m, a, y, hm, hy, hlt, h => by
    rw [List.length_cons, Nat.mul_succ] at hlt
    cases hA : admitsAll p .write a esize
    · rw [writePixels, W.refuses m a x hA]
    · obtain ⟨m1, e1, w1, -, -⟩ := W.writes m a x hm hA
      have hge : a + esize ≤ y := by
        by_contra hcon
        have := (admitsAll_iff p .write a esize).1 hA y hy (by omega)
        simp [h] at this
      rw [writePixels, e1]
      exact writePixels_none W xs w1 hge (by omega) h

/-! ### The image pass -/

/-- Everything an image pass can do (R155, R161): refuse the descriptors, meet a bus error in the read phase, meet one in
the write phase, or complete. -/
theorem imagePass_cases {α β : Type} (s : State) (ty : ElemType) (src dst : Nat) (code : Byte)
    (rd : Nat → Option α) (wr : Memory → Nat → β → Option Memory) (pixel : α → β) :
    (descriptorsOk s ty src dst = false ∧ imagePass s ty src dst code rd wr pixel = raiseError .invalidInput s) ∨
    (descriptorsOk s ty src dst = true ∧ readPixels rd src s.srcAddr.toNat (dimPixels s.srcDim) = none ∧
      imagePass s ty src dst code rd wr pixel = raiseError .busError s) ∨
    (∃ xs, descriptorsOk s ty src dst = true ∧
      readPixels rd src s.srcAddr.toNat (dimPixels s.srcDim) = some xs ∧
      writePixels wr dst s.mem s.dstAddr.toNat (xs.map pixel) = none ∧
      imagePass s ty src dst code rd wr pixel = raiseError .busError
        { s with
          mem := scramble s.platform s.draws s.mem s.dstAddr.toNat (dst * dimPixels s.srcDim),
          draws := s.draws + 1 }) ∨
    (∃ xs m, descriptorsOk s ty src dst = true ∧
      readPixels rd src s.srcAddr.toNat (dimPixels s.srcDim) = some xs ∧
      writePixels wr dst s.mem s.dstAddr.toNat (xs.map pixel) = some m ∧
      imagePass s ty src dst code rd wr pixel =
        reportOk { s with mem := m, dstDim := s.srcDim, dstFmt := setFmtType s.dstFmt code }) := by
  unfold imagePass
  cases hd : descriptorsOk s ty src dst
  · simp
  · cases hr : readPixels rd src s.srcAddr.toNat (dimPixels s.srcDim) with
    | none => simp
    | some xs =>
      cases hw : writePixels wr dst s.mem s.dstAddr.toNat (xs.map pixel) <;> simp [hw]

/-- The checks of R156 and R162 in the terms of R30 and R32. -/
theorem descriptorsOk_iff (s : State) (ty : ElemType) (src dst : Nat) :
    descriptorsOk s ty src dst = true ↔
      elemType s.srcFmt = ty ∧ dimPixels s.srcDim ≠ 0 ∧
        s.srcAddr.toNat + src * dimPixels s.srcDim ≤ Config.addrSpace ∧
        s.dstAddr.toNat + dst * dimPixels s.srcDim ≤ Config.addrSpace := by
  simp [descriptorsOk, extentFits, and_assoc]

/-- R30: W and H as the low and high halves of a DIM register. -/
theorem dimPixels_eq (w : Word) : dimPixels w = w.toNat % 65536 * (w.toNat / 65536) := by
  have := w.isLt
  simp [dimPixels, dimWidth, dimHeight, BitVec.extractLsb'_toNat, Nat.shiftRight_eq_div_pow]
  left
  omega

end Sys2Proof.Machine
end

