-- ==== Sys2Proof/Laws/HostPort.lean ====
section
/-! SUPPORT. The host's accesses: which are defined (R34), and that no operation is refused. -/

namespace Sys2Proof.Machine

/-- R34: a defined access is 32 bits wide at an offset that is a multiple of 4. -/
theorem accessDefined_iff (size : AccessSize) (off : Word) :
    accessDefined size off = true ↔ size = .word ∧ off.toNat % 4 = 0 := by
  simp only [accessDefined, Bool.and_eq_true, decide_eq_true_eq, ← BitVec.toNat_inj, BitVec.extractLsb'_toNat]
  simp

/-- Every arm of `exec` models its operation: none answers a refusal. -/
theorem exec_ne_refused (i : Instr) (s : State) (r : Refusal) : exec i s ≠ .refused r := by
  intro h
  cases i <;>
    simp only [exec, execVenc, execVdec, execCfg, execSfwd, execSinv, execPenc, execPdec, execIenc, execIdec, withAct,
      withLut] at h <;>
    (repeat' split at h) <;> simp at h

end Sys2Proof.Machine
end

