-- ==== Sys2Proof/Laws/ValueCodec.lean ====
section
/-! SUPPORT. Scalars in RESULT as numbers (R25), VEnc segment by segment (R100), and the range of VDec. -/

namespace Sys2Proof.Machine

theorem tripleWord_toNat (t : Triple) :
    (tripleWord t).toNat = t.r.toNat + 256 * t.g.toNat + 65536 * t.b.toNat := by
  have h2 := t.r.isLt
  have h3 := t.g.isLt
  have h4 := t.b.isLt
  simp only [tripleWord, BitVec.toNat_append]
  rw [Nat.shiftLeft_eq, Nat.shiftLeft_eq, Nat.shiftLeft_eq, Nat.mul_comm, Nat.mul_comm _ (2 ^ 8),
    Nat.mul_comm _ (2 ^ 8), ← Nat.two_pow_add_eq_or_of_lt h4, ← Nat.two_pow_add_eq_or_of_lt h3,
    ← Nat.two_pow_add_eq_or_of_lt h2]
  simp
  omega

/-- The triple read back from RESULT, channel by channel (R25). -/
theorem triple_of_tripleWord (t : Triple) :
    (⟨(tripleWord t).extractLsb' 0 8, (tripleWord t).extractLsb' 8 8, (tripleWord t).extractLsb' 16 8⟩ : Triple) = t := by
  have h := tripleWord_toNat t
  obtain ⟨r, g, b⟩ := t
  have h2 := r.isLt
  have h3 := g.isLt
  have h4 := b.isLt
  congr 1 <;> apply BitVec.eq_of_toNat_eq <;>
    simp only [BitVec.extractLsb'_toNat, h, Nat.shiftRight_eq_div_pow] <;> omega

theorem sampleWord_toNat (v : Sample) : (sampleWord v).toNat = v.toNat := by
  have := v.isLt
  simp [sampleWord]
  omega

theorem levelWord_toNat {v : Nat} (h : v ≤ Config.levelMax) : (levelWord v).toNat = v := by
  unfold Config.levelMax at h
  simp [levelWord]
  omega

theorem vEnc_zero : vEnc 0 = ⟨0#8, 0#8, 0#8⟩ := rfl

theorem vEnc_seg1 {v : Nat} (h : 1 ≤ v) (h' : v ≤ 255) : vEnc v = ⟨255#8, BitVec.ofNat 8 (v - 1), 0#8⟩ := by
  rw [vEnc, if_neg (by omega), if_pos h']

theorem vEnc_seg2 {v : Nat} (h : 256 ≤ v) (h' : v ≤ 510) : vEnc v = ⟨BitVec.ofNat 8 (511 - v), 255#8, 0#8⟩ := by
  rw [vEnc, if_neg (by omega), if_neg (by omega), if_pos h']

theorem vEnc_seg3 {v : Nat} (h : 511 ≤ v) (h' : v ≤ 765) : vEnc v = ⟨0#8, 255#8, BitVec.ofNat 8 (v - 511)⟩ := by
  rw [vEnc, if_neg (by omega), if_neg (by omega), if_neg (by omega), if_pos h']

theorem vEnc_seg4 {v : Nat} (h : 766 ≤ v) (h' : v ≤ 1020) : vEnc v = ⟨0#8, BitVec.ofNat 8 (1021 - v), 255#8⟩ := by
  rw [vEnc, if_neg (by omega), if_neg (by omega), if_neg (by omega), if_neg (by omega), if_pos h']

theorem vEnc_seg5 {v : Nat} (h : 1021 ≤ v) (h' : v ≤ 1275) : vEnc v = ⟨BitVec.ofNat 8 (v - 1021), 0#8, 255#8⟩ := by
  rw [vEnc, if_neg (by omega), if_neg (by omega), if_neg (by omega), if_neg (by omega), if_neg (by omega), if_pos h']

theorem vEnc_seg6 {v : Nat} (h : 1276 ≤ v) (h' : v ≤ 1530) : vEnc v = ⟨255#8, 0#8, BitVec.ofNat 8 (1531 - v)⟩ := by
  rw [vEnc, if_neg (by omega), if_neg (by omega), if_neg (by omega), if_neg (by omega), if_neg (by omega),
    if_neg (by omega), if_pos (show v ≤ Config.levelMax from h')]

theorem vEnc_above {v : Nat} (h : 1530 < v) : vEnc v = ⟨255#8, 0#8, 0#8⟩ := by
  rw [vEnc, if_neg (by omega), if_neg (by omega), if_neg (by omega), if_neg (by omega), if_neg (by omega),
    if_neg (by omega), if_neg (show ¬ v ≤ Config.levelMax from Nat.not_le.2 h)]

theorem vDec_le (t : Triple) : vDec t ≤ Config.levelMax := by
  have h2 := t.r.isLt
  have h3 := t.g.isLt
  have h4 := t.b.isLt
  unfold vDec vDecInt Config.darkSum Config.levelMax
  split_ifs <;> omega

end Sys2Proof.Machine
end

