-- ==== Sys2Proof/Laws/RangeScaler.lean ====
section
/-! SUPPORT. The numerics of the Range Scaler: `round` on non-negative rationals in the terms of `IsRounded` (R124), the
range of the clamped product (R9), EPS as a quotient (R122), and the bits of STATUS that CFG writes. -/

namespace Sys2Proof.Machine

theorem eps_eq : Config.eps = 1 / 10 ^ 9 := by norm_num [Config.eps, Rat.mkRat_eq_div]

/-- On a non-negative rational `round` is the floor of q + 1/2. -/
theorem roundAway_of_nonneg {q : Rat} (h : 0 ≤ q) : roundAway q = ⌊q + 1 / 2⌋ := by
  have half : mkRat 1 2 = 1 / 2 := by norm_num [Rat.mkRat_eq_div]
  rw [roundAway, if_pos h, half]
  rfl

/-- R124 on a non-negative rational: `round` gives a natural number, the nearest one, ties up. -/
theorem roundAway_isRounded {q : Rat} (h : 0 ≤ q) : ∃ n : Nat, roundAway q = n ∧ IsRounded q n := by
  have hn : 0 ≤ roundAway q := by
    rw [roundAway_of_nonneg h]
    exact Int.floor_nonneg.2 (by linarith)
  obtain ⟨n, e⟩ := Int.eq_ofNat_of_zero_le hn
  have h1 := Int.floor_le (q + 1 / 2)
  have h2 := Int.lt_floor_add_one (q + 1 / 2)
  rw [← roundAway_of_nonneg h, e, Int.cast_natCast] at h1 h2
  exact ⟨n, e, by linarith, by linarith⟩

/-- A rational rounds to one natural number only. -/
theorem IsRounded.unique {q : Rat} {n m : Nat} (h : IsRounded q n) (h' : IsRounded q m) : n = m := by
  obtain ⟨a, b⟩ := h
  obtain ⟨c, d⟩ := h'
  have h1 : n < m + 1 := by exact_mod_cast (by linarith : (n : Rat) < m + 1)
  have h2 : m < n + 1 := by exact_mod_cast (by linarith : (m : Rat) < n + 1)
  omega

theorem clamp01_nonneg (q : Rat) : 0 ≤ clamp01 q := le_min (le_max_right _ _) (by norm_num)

theorem clamp01_le_one (q : Rat) : clamp01 q ≤ 1 := min_le_right _ _

/-- Every level the forward map gives is in 0..1530 (R134). -/
theorem scaleFwd_le (act : Act) (d : Sample) : scaleFwd act d ≤ Config.levelMax := by
  unfold scaleFwd
  split
  · exact Nat.zero_le _
  · dsimp only
    generalize ((if act.inverse = true then 1 / (d.toNat : Rat) else (d.toNat : Rat)) - act.minU) / act.rangeU = q
    have h0 := clamp01_nonneg q
    have h1 := clamp01_le_one q
    have hl : ((Config.levelMax : Nat) : Rat) = 1530 := by norm_num [Config.levelMax]
    rw [hl]
    obtain ⟨n, e, hr, -⟩ := roundAway_isRounded (q := 1530 * clamp01 q) (by linarith)
    have hn : n < 1531 := by exact_mod_cast (by linarith : (n : Rat) < 1531)
    rw [e]
    simp [Config.levelMax]
    omega

/-- PixEnc on the table CFG builds is VEnc of the level (R132, R150). -/
theorem pixEnc_buildLut (act : Act) (d : Sample) : lutEntry buildLut (scaleFwd act d) = vEnc (scaleFwd act d) :=
  lutEntry_buildLut (scaleFwd_le act d)

/-- CFG touches no bit of STATUS but VALID and EPS_SUB before its report. -/
theorem setEpsSub_setValid_getLsbD (w : Word) (valid eps : Bool) {i : Nat} (h : 2 ≤ i) (hi : i < 32) :
    (setEpsSub (setValid w valid) eps).getLsbD i = w.getLsbD i := by
  rw [setEpsSub, setBit_getLsbD _ _ _ _ hi, if_neg (by omega), setValid, setBit_getLsbD _ _ _ _ hi, if_neg (by omega)]

end Sys2Proof.Machine
end

