-- ==== Sys2Proof/Laws/ImageCodec.lean ====
section
/-! SUPPORT. The image pass in the terms of Safety: when its descriptors are accepted, what it leaves when both extents are
admitted, and what the two bus errors leave. -/

namespace Sys2Proof.Machine

theorem dimPixels_srcDim (s : State) : dimPixels s.srcDim = pixelCount s := dimPixels_eq _

theorem fmtType_toNat (w : Word) : (fmtType w).toNat = w.toNat % 256 := by
  simp [fmtType, BitVec.extractLsb'_toNat]

theorem fmtType_eq_iff (w : Word) {k : Nat} (hk : k < 256) : fmtType w = BitVec.ofNat 8 k ↔ w.toNat % 256 = k := by
  rw [← fmtType_toNat, ← BitVec.toNat_inj]
  simp
  omega

theorem elemType_u16c1_iff (w : Word) : elemType w = .u16c1 ↔ w.toNat % 256 = 1 := by
  have e0 := fmtType_eq_iff w (k := 0) (by omega)
  have e1 := fmtType_eq_iff w (k := 1) (by omega)
  unfold elemType
  simp only [e0, e1]
  split_ifs <;> simp <;> omega

theorem elemType_u8c3_iff (w : Word) : elemType w = .u8c3 ↔ w.toNat % 256 = 2 := by
  have e0 := fmtType_eq_iff w (k := 0) (by omega)
  have e1 := fmtType_eq_iff w (k := 1) (by omega)
  have e2 := fmtType_eq_iff w (k := 2) (by omega)
  unfold elemType
  simp only [e0, e1, e2]
  split_ifs <;> simp <;> omega

/-- R156: the descriptors IENC accepts. -/
theorem descriptorsOk_ienc (s : State) : descriptorsOk s .u16c1 depthSize colourSize = true ↔ PassReady s 1 2 3 := by
  rw [descriptorsOk_iff, dimPixels_srcDim, elemType_u16c1_iff]
  rfl

/-- R162: the descriptors IDEC accepts. -/
theorem descriptorsOk_idec (s : State) : descriptorsOk s .u8c3 colourSize depthSize = true ↔ PassReady s 2 3 2 := by
  rw [descriptorsOk_iff, dimPixels_srcDim, elemType_u8c3_iff]
  rfl

/-- A pixel reader of `esize` bytes: admitted, it gives the pixel stored there; else it is a bus error. -/
def PixelReader {α : Type} (p : Platform) (esize : Nat) (rd : Nat → Option α) (x : Nat → α) : Prop :=
  ∀ a, rd a = if admitsAll p .read a esize then some (x a) else none

theorem readSample_reader (p : Platform) (m : Memory) : PixelReader p depthSize (readSample p m) (sampleAt m) := by
  intro a
  rw [readSample_eq, loadLE_two]
  rfl

theorem readTriple_reader (p : Platform) (m : Memory) : PixelReader p colourSize (readTriple p m) (tripleAt m) := by
  intro a
  rw [readTriple_eq]
  rfl

/-- With the source extent admitted the read phase gives its pixels. -/
theorem PixelReader.readPixels_admitted {α : Type} {p : Platform} {esize : Nat} {rd : Nat → Option α} {x : Nat → α}
    (R : PixelReader p esize rd x) {a n : Nat}
    (h : ∀ y, a ≤ y → y < a + esize * n → memAdmit p y .read = true) :
    readPixels rd esize a n = some ((List.range n).map fun k => x (a + esize * k)) := by
  refine readPixels_some _ fun k hk => ?_
  rw [R, if_pos ((admitsAll_iff ..).2 fun y h1 h2 => h y (by omega) ?_)]
  have : esize * k + esize ≤ esize * n := by
    rw [← Nat.mul_succ]
    exact Nat.mul_le_mul_left _ hk
  omega

/-- A source byte that is not admitted makes the read phase a bus error. -/
theorem PixelReader.readPixels_refused {α : Type} {p : Platform} {esize : Nat} {rd : Nat → Option α} {x : Nat → α}
    (R : PixelReader p esize rd x) (h0 : 0 < esize) {a n y : Nat} (h1 : a ≤ y) (h2 : y < a + esize * n)
    (h : memAdmit p y .read = false) : readPixels rd esize a n = none := by
  have hk : (y - a) / esize < n := by
    rw [Nat.div_lt_iff_lt_mul h0, Nat.mul_comm]
    omega
  refine readPixels_none hk ?_
  rw [R, if_neg]
  intro hc
  have e := Nat.div_add_mod (y - a) esize
  have l := Nat.mod_lt (y - a) h0
  have := (admitsAll_iff ..).1 hc y (by omega) (by omega)
  simp [h] at this

section Pass

variable {α β : Type} {s : State} {ty : ElemType} {src dst : Nat} {code : Byte} {rd : Nat → Option α} {x : Nat → α}
  {wr : Memory → Nat → β → Option Memory} {bytes : β → Nat → Byte} (pixel : α → β)

/-- With both extents admitted the pass completes: every destination pixel is the image of its source pixel as it was
before the pass, and no other byte of memory changes. -/
theorem imagePass_complete (hm : Memory.wf s.mem = true) (R : PixelReader s.platform src rd x)
    (W : PixelWriter s.platform wr dst bytes) (hd : descriptorsOk s ty src dst = true) (h1 : SourceAdmitted s src)
    (h2 : DestAdmitted s dst) :
    ∃ m, imagePass s ty src dst code rd wr pixel =
        reportOk { s with mem := m, dstDim := s.srcDim, dstFmt := setFmtType s.dstFmt code } ∧
      Memory.wf m = true ∧
      (∀ k, k < pixelCount s → ∀ i, i < dst →
        Memory.read m (s.dstAddr.toNat + dst * k + i) = bytes (pixel (x (s.srcAddr.toNat + src * k))) i) ∧
      ∀ y, y < s.dstAddr.toNat ∨ s.dstAddr.toNat + dst * pixelCount s ≤ y → Memory.read m y = Memory.read s.mem y := by
  have hr := R.readPixels_admitted h1
  obtain ⟨m, e, w, r, o⟩ :=
    writePixels_some W (((List.range (pixelCount s)).map fun k => x (s.srcAddr.toNat + src * k)).map pixel)
      (a := s.dstAddr.toNat) hm (fun y h3 h4 => h2 y h3 (by simpa using h4))
  refine ⟨m, ?_, w, fun k hk i hi => r k _ (by simp [hk]) i hi, by simpa using o⟩
  unfold imagePass
  rw [if_pos hd, dimPixels_srcDim, hr]
  simp only [e]

/-- A source byte that is not admitted: a read-phase bus error, nothing written (R64). -/
theorem imagePass_readError (h0 : 0 < src) (R : PixelReader s.platform src rd x)
    (hd : descriptorsOk s ty src dst = true) (h1 : ¬ SourceAdmitted s src) :
    imagePass s ty src dst code rd wr pixel = raiseError .busError s := by
  unfold SourceAdmitted at h1
  push Not at h1
  obtain ⟨y, a1, a2, a3⟩ := h1
  unfold imagePass
  rw [if_pos hd, dimPixels_srcDim, R.readPixels_refused h0 a1 a2 (by simpa using a3)]

/-- A destination byte that is not admitted, with the source read: a write-phase bus error (R64). -/
theorem imagePass_writeError (hm : Memory.wf s.mem = true) (R : PixelReader s.platform src rd x)
    (W : PixelWriter s.platform wr dst bytes) (hd : descriptorsOk s ty src dst = true) (h1 : SourceAdmitted s src)
    (h2 : ¬ DestAdmitted s dst) :
    imagePass s ty src dst code rd wr pixel = raiseError .busError
      { s with mem := scramble s.platform s.draws s.mem s.dstAddr.toNat (dst * pixelCount s), draws := s.draws + 1 } := by
  unfold DestAdmitted at h2
  push Not at h2
  obtain ⟨y, a1, a2, a3⟩ := h2
  have hr := R.readPixels_admitted h1
  have hw :=
    writePixels_none W (((List.range (pixelCount s)).map fun k => x (s.srcAddr.toNat + src * k)).map pixel)
      (a := s.dstAddr.toNat) hm a1 (by simpa using a2) (by simpa using a3)
  unfold imagePass
  rw [if_pos hd, dimPixels_srcDim, hr]
  simp only [hw]

end Pass

/-- R31, R33: with the reserved bits of FMT zero, writing the type leaves exactly the type. -/
theorem setFmtType_toNat {w : Word} (hw : w &&& ~~~fmtMask = 0#32) (c : Byte) : (setFmtType w c).toNat = c.toNat := by
  have : setFmtType w c = c.setWidth 32 := by
    apply BitVec.eq_of_getLsbD_eq
    intro k hk
    have := congrArg (fun v => v.getLsbD k) hw
    simp [fmtMask] at this
    interval_cases k <;> simp [setFmtType] at * <;> simp_all
  rw [this]
  have := c.isLt
  simp
  omega

end Sys2Proof.Machine
end

