-- ==== Sys2Proof/Laws/Syntax.lean ====
section
/-! SUPPORT. Operations as syntax: their operands are always in the ranges of R89. -/

namespace Sys2Proof.Laws

open Sys2Proof Sys2Proof.Machine

theorem inU16_toNat (v : Sample) : inU16 v.toNat = true := by
  have := v.isLt
  simp [inU16]; omega

theorem inU8_toNat (b : Byte) : inU8 b.toNat = true := by
  have := b.isLt
  simp [inU8]; omega

/-- Every operation is well formed: its operands have the widths R89 asks for. -/
theorem instr_wellFormed (i : Instr) : i.wellFormed = true := by
  cases i <;> simp [Instr.wellFormed, Instr.toAsm, AsmOp.wellFormed, inU16_toNat, inU8_toNat]

end Sys2Proof.Laws
end

