-- ==== Sys2Proof/Laws/PerInstr.lean ====
section
/-! SUPPORT. The families of LAWS.json: one statement about an operation as syntax, one lemma per constructor. -/

namespace Sys2Proof.Laws.TableRow

open Sys2Proof

/-- The encoding of an operation is an instance of the row of R86 that carries its mnemonic. -/
def Statement (i : Instr) : Prop :=
  ∃ row ∈ opcodeTable, row.mnemonic = i.mnemonic ∧ row.accepts (encode i) = true

theorem encodeH_masked (op : Byte) (v : Sample) : encodeH op v &&& 0xFF0000FF#32 = op.setWidth 32 := by
  ext i hi
  simp only [encodeH, BitVec.getElem_and, BitVec.getElem_append, BitVec.getElem_setWidth]
  interval_cases i <;> simp

theorem encodeT_masked (op r g b : Byte) : encodeT op r g b &&& 0x000000FF#32 = op.setWidth 32 := by
  ext i hi
  simp only [encodeT, BitVec.getElem_and, BitVec.getElem_append, BitVec.getElem_setWidth]
  interval_cases i <;> simp

theorem venc (v : Sample) : Statement (.venc v) :=
  ⟨⟨"VENC", 0xFF0000FF#32, 0x00000001#32⟩, by simp [opcodeTable], rfl, by
    simp [OpRow.accepts, encode, encodeH_masked]⟩

theorem vdec (r g b : Byte) : Statement (.vdec r g b) :=
  ⟨⟨"VDEC", 0x000000FF#32, 0x00000002#32⟩, by simp [opcodeTable], rfl, by
    simp [OpRow.accepts, encode, encodeT_masked]⟩

theorem cfg : Statement .cfg :=
  ⟨⟨"CFG", 0xFFFFFFFF#32, 0x00000010#32⟩, by simp [opcodeTable], rfl, rfl⟩

theorem sfwd (d : Sample) : Statement (.sfwd d) :=
  ⟨⟨"SFWD", 0xFF0000FF#32, 0x00000011#32⟩, by simp [opcodeTable], rfl, by
    simp [OpRow.accepts, encode, encodeH_masked]⟩

theorem sinv (l : Sample) : Statement (.sinv l) :=
  ⟨⟨"SINV", 0xFF0000FF#32, 0x00000012#32⟩, by simp [opcodeTable], rfl, by
    simp [OpRow.accepts, encode, encodeH_masked]⟩

theorem penc (d : Sample) : Statement (.penc d) :=
  ⟨⟨"PENC", 0xFF0000FF#32, 0x00000020#32⟩, by simp [opcodeTable], rfl, by
    simp [OpRow.accepts, encode, encodeH_masked]⟩

theorem pdec (r g b : Byte) : Statement (.pdec r g b) :=
  ⟨⟨"PDEC", 0x000000FF#32, 0x00000021#32⟩, by simp [opcodeTable], rfl, by
    simp [OpRow.accepts, encode, encodeT_masked]⟩

theorem ienc : Statement .ienc :=
  ⟨⟨"IENC", 0xFFFFFFFF#32, 0x00000022#32⟩, by simp [opcodeTable], rfl, rfl⟩

theorem idec : Statement .idec :=
  ⟨⟨"IDEC", 0xFFFFFFFF#32, 0x00000023#32⟩, by simp [opcodeTable], rfl, rfl⟩

end Sys2Proof.Laws.TableRow
end

