-- ==== Sys2Proof/Tests/Slice0.lean ====
section
/-! SUPPORT. The model's own tests. Expected values are those of spec/95_test_vectors.md (the vector is named at each
test) or are worked out by hand from the rule named; the witnesses show that the hypotheses of each statement of
Certificates/Slice0/Obligations.lean can be met. -/

namespace Sys2Proof.Tests

open Sys2Proof Sys2Proof.Machine

/-! ### Small states -/

/-- Whether an outcome is a next state with a property. -/
def gives (o : Host.Outcome State Fault Refusal) (p : State → Bool) : Bool :=
  match o with
  | .next t => p t
  | _       => false

/-- ACT of vector S1, the identity. -/
def actS1 : Act := ⟨0, 1530, 1530, false⟩

/-- ACT of vector S2, linear from 2 to 8. -/
def actS2 : Act := ⟨2, 8, 6, false⟩

/-- ACT of vector S3, the bounds of S2 in inverse mode. -/
def actS3 : Act := ⟨1 / 2, 1 / 8, -3 / 8, true⟩

/-- The state after Reset, but with a configuration active. -/
def configured (act : Act) : State :=
  { State.reset with status := 0x00000001#32, act := some act, lut := some buildLut }

/-- A configured state with a source descriptor, a destination address and memory contents. -/
def imaging (act : Act) (src dim fmt dst : Word) (m : Memory) : State :=
  { configured act with srcAddr := src, srcDim := dim, srcFmt := fmt, dstAddr := dst, mem := m }

/-- The state after Reset, but with staging registers written. -/
def staged (mn mx sc md : Word) : State :=
  { State.reset with cfgMinM := mn, cfgMaxM := mx, cfgScale := sc, cfgMode := md }

/-- The state after Reset, but with one host action pending. -/
def pending (a : HostAction) : State := { State.reset with host := [a] }

/-- What the next step leaves when the host writes a command word. -/
def afterWord (s : State) (w : Nat) : Host.Outcome State Fault Refusal := step (s.withFetchWord 32 w)

theorem actS1_sound : actS1.Sound :=
  ⟨by norm_num [actS1], by norm_num [actS1], by norm_num [actS1], by norm_num [actS1], by simp [actS1], by simp [actS1]⟩

theorem actS2_sound : actS2.Sound :=
  ⟨by norm_num [actS2], by norm_num [actS2], by norm_num [actS2], by norm_num [actS2], by simp [actS2], by simp [actS2]⟩

theorem actS3_sound : actS3.Sound :=
  ⟨by norm_num [actS3], by norm_num [actS3], by norm_num [actS3], by norm_num [actS3], fun _ => by norm_num [actS3],
    fun _ => by norm_num [actS3]⟩

theorem imaging_inv {act : Act} (hs : act.Sound) {src dim fmt dst : Word} {m : Memory}
    (hf : fmt &&& ~~~fmtMask = 0#32) (hm : Memory.wf m = true) : (imaging act src dim fmt dst m).Inv where
  status_reserved := show 0x00000001#32 &&& statusReservedMask = 0#32 by decide
  last_code := show (statusLast 0x00000001#32).toNat ≤ 6 by decide
  mode_reserved := show 0x00000000#32 &&& ~~~modeMask = 0#32 by decide
  src_reserved := hf
  dst_reserved := show 0x00000000#32 &&& ~~~fmtMask = 0#32 by decide
  act_valid := show true = statusValid 0x00000001#32 by decide
  act_sound := fun _ h => Option.some.inj (show some act = some _ from h) ▸ hs
  lut_valid := by
    show some buildLut = if statusValid 0x00000001#32 = true then some buildLut else none
    rw [if_pos (by decide)]
  eps_sub := fun h => absurd h (show ¬ statusEpsSub 0x00000001#32 = true by decide)
  mem_wf := hm

theorem configured_inv {act : Act} (hs : act.Sound) : (configured act).Inv :=
  imaging_inv (src := 0#32) (dim := 0#32) (fmt := 0#32) (dst := 0#32) (m := []) hs (by decide) (by decide)

theorem reset_inv : State.Inv State.reset := by
  constructor <;> simp [State.reset, State.resetOn, statusLast, statusValid, statusEpsSub, Memory.wf, Memory.wfFrom]

/-- The platform of `State.reset` admits every byte below its register window. -/
theorem admit_low {a : Nat} (k : AccessKind) (h : a < 0x80000000) : memAdmit Config.platform a k = true := by
  have h1 : a < 4294967296 := by omega
  have h2 : ¬ 0x80000000 ≤ a := by omega
  cases k <;> simp [memAdmit, inWindow, Config.platform, Region.admits, Config.addrSpace, h1, h2]

/-! ### WellFormed: each operand range of R89 refuses the first value above it -/

theorem test_wf_venc_refused : AsmOp.wellFormed (.venc 65536) = false := by decide
theorem test_wf_vdec_r_refused : AsmOp.wellFormed (.vdec 256 0 0) = false := by decide
theorem test_wf_vdec_g_refused : AsmOp.wellFormed (.vdec 0 256 0) = false := by decide
theorem test_wf_vdec_b_refused : AsmOp.wellFormed (.vdec 0 0 256) = false := by decide
theorem test_wf_sfwd_refused : AsmOp.wellFormed (.sfwd 65536) = false := by decide
theorem test_wf_sinv_refused : AsmOp.wellFormed (.sinv 65536) = false := by decide
theorem test_wf_penc_refused : AsmOp.wellFormed (.penc 65536) = false := by decide
theorem test_wf_pdec_r_refused : AsmOp.wellFormed (.pdec 256 0 0) = false := by decide
theorem test_wf_pdec_g_refused : AsmOp.wellFormed (.pdec 0 256 0) = false := by decide
theorem test_wf_pdec_b_refused : AsmOp.wellFormed (.pdec 0 0 256) = false := by decide
theorem test_wf_highest_operands :
    AsmOp.wellFormed (.venc 65535) = true ∧ AsmOp.wellFormed (.vdec 255 255 255) = true := by decide

/-! ### Decode: every constructor from a word written out field by field (R81, R83, R84, R86) -/

/-- VENC 1530 = 0x05FA: zero, V16, opcode 0x01. -/
theorem test_decode_venc : decode 0b00000000_0000010111111010_00000001#32 = .ok (.venc 1530#16) := by decide
/-- VDEC 200, 100, 50: B, G, R, opcode 0x02. -/
theorem test_decode_vdec : decode 0b00110010_01100100_11001000_00000010#32 = .ok (.vdec 200#8 100#8 50#8) := by decide
theorem test_decode_cfg : decode 0b000000000000000000000000_00010000#32 = .ok .cfg := by decide
theorem test_decode_sfwd : decode 0b00000000_0000000000000101_00010001#32 = .ok (.sfwd 5#16) := by decide
theorem test_decode_sinv : decode 0b00000000_1111111111111111_00010010#32 = .ok (.sinv 65535#16) := by decide
theorem test_decode_penc : decode 0b00000000_1000000000000001_00100000#32 = .ok (.penc 0x8001#16) := by decide
theorem test_decode_pdec : decode 0b11111110_11111111_00000000_00100001#32 = .ok (.pdec 0#8 255#8 254#8) := by decide
theorem test_decode_ienc : decode 0b000000000000000000000000_00100010#32 = .ok .ienc := by decide
theorem test_decode_idec : decode 0b000000000000000000000000_00100011#32 = .ok .idec := by decide
theorem test_decode_unassigned : decode 0x00000003#32 = .error (.unassignedOpcode 0x03#8) := by decide
theorem test_decode_h_reserved : decode 0x01000101#32 = .error (.reservedBitsSet 0x01#8) := by decide
theorem test_decode_n_reserved : decode 0x00000110#32 = .error (.reservedBitsSet 0x10#8) := by decide
/-- The assembler's word for a statement of R89. -/
theorem test_asm_vdec : asmWord (.vdec 200 100 50) = some 0x3264C802#32 := by decide

/-! ### One step of each operation -/

/-- V1: VENC 1530 is (255, 0, 1). -/
theorem test_venc_top : gives (afterWord State.reset 0x0005FA01)
    (fun t => t.result == 0x000100FF#32 && t.status == 0x00000000#32) = true := by decide +kernel
/-- V1: VENC 1531 is (255, 0, 0) with E_LEVEL and LAST = 2. -/
theorem test_venc_above : gives (afterWord State.reset 0x0005FB01)
    (fun t => t.result == 0x000000FF#32 && t.status == 0x00020020#32) = true := by decide +kernel
/-- V2: VDEC 255, 0, 254 is level 1277. -/
theorem test_vdec_purple : gives (afterWord State.reset 0xFE00FF02)
    (fun t => t.result == 0x000004FD#32 && t.status == 0x00000000#32) = true := by decide +kernel
/-- V2: VDEC 64, 64, 0 has sum 128, level 0. -/
theorem test_vdec_dark : gives (afterWord State.reset 0x00404002) (fun t => t.result == 0#32) = true := by
  decide +kernel
/-- S3: CFG of 1.0, 4.0 at 0.5, inverse. -/
theorem test_cfg_inverse : gives (afterWord (staged 0x3F800000#32 0x40800000#32 0x3F000000#32 1#32) 0x10)
    (fun t => t.act == some actS3 && t.status == 0x00000001#32) = true := by decide +kernel
/-- S10: CFG with max = 0 in inverse mode: the epsilon is substituted first, then the failure clears EPS_SUB. -/
theorem test_cfg_refused :
    gives (afterWord { configured actS2 with cfgScale := 0x3F800000#32, cfgMode := 1#32 } 0x10)
      (fun t => t.act.isNone && t.lut.isNone && t.status == 0x00030040#32) = true := by decide +kernel
/-- S3: SFWD 7 is level 1457 (1457.14...). -/
theorem test_sfwd_inverse : gives (afterWord (configured actS3) 0x00000711)
    (fun t => t.result == 1457#32 && t.status == 0x00000001#32) = true := by decide +kernel
/-- S10: SFWD 5 after a failed CFG reports NoConfig. -/
theorem test_sfwd_noConfig : gives (afterWord { State.reset with status := 0x00030040#32 } 0x00000511)
    (fun t => t.result == 0#32 && t.status == 0x000400C0#32) = true := by decide +kernel
/-- S2: SINV 383 is sample 4 (3.50196...). -/
theorem test_sinv_linear : gives (afterWord (configured actS2) 0x00017F12)
    (fun t => t.result == 4#32 && t.status == 0x00000001#32) = true := by decide +kernel
/-- S1: SINV 1531 is 0, without an error. -/
theorem test_sinv_above : gives (afterWord (configured actS1) 0x0005FB12)
    (fun t => t.result == 0#32 && t.status == 0x00000001#32) = true := by decide +kernel
/-- X2: PENC 6 is level 1360, (255, 0, 171). -/
theorem test_penc_inverse : gives (afterWord (configured actS3) 0x00000620)
    (fun t => t.result == 0x00AB00FF#32) = true := by decide +kernel
/-- X1: PDEC 64, 64, 1 is level 64, sample 2. -/
theorem test_pdec_linear : gives (afterWord (configured actS2) 0x01404021)
    (fun t => t.result == 2#32) = true := by decide +kernel

/-- X4: an IENC whose destination overlaps its source, samples 0, 1, 766, 2000. -/
theorem test_ienc_overlap :
    gives (afterWord (imaging actS1 0x1000#32 0x00010004#32 1#32 0x1004#32
        [(0x1002, 0x01#8), (0x1004, 0xFE#8), (0x1005, 0x02#8), (0x1006, 0xD0#8), (0x1007, 0x07#8)]) 0x22)
      (fun t => (List.range 16).map (fun i => Memory.read t.mem (0x1000 + i)) ==
          [0x00#8, 0x00#8, 0x01#8, 0x00#8, 0x00#8, 0x00#8, 0x00#8, 0xFF#8, 0x00#8, 0x00#8, 0x00#8, 0xFF#8, 0xFF#8,
            0xFF#8, 0x00#8, 0x01#8] &&
        t.dstDim == 0x00010004#32 && t.dstFmt == 2#32 && t.status == 0x00000001#32) = true := by decide +kernel
/-- The write phase of an IENC at the register window: a bus error, the descriptor and the source as they were
(R64, R186). -/
theorem test_ienc_busError :
    gives (afterWord (imaging actS1 0x1000#32 0x00010001#32 1#32 0x80000000#32 [(0x1000, 0x05#8)]) 0x22)
      (fun t => t.status == 0x00060201#32 && t.dstFmt == 0#32 && t.mem == [(0x1000, 0x05#8)] && t.draws == 1) = true := by
  decide +kernel
/-- X3: IDEC of the triples (0, 255, 254) and (255, 0, 1) is the samples 5 and 8. -/
theorem test_idec_linear :
    gives (afterWord (imaging actS2 0x200#32 0x00010002#32 2#32 0x300#32
        [(0x201, 0xFF#8), (0x202, 0xFE#8), (0x203, 0xFF#8), (0x205, 0x01#8)]) 0x23)
      (fun t => (List.range 4).map (fun i => Memory.read t.mem (0x300 + i)) == [0x05#8, 0x00#8, 0x08#8, 0x00#8] &&
        t.dstDim == 0x00010002#32 && t.dstFmt == 1#32 && t.status == 0x00000001#32) = true := by decide +kernel
/-- R162: IDEC of a source of the wrong type is a no-op that reports InvalidInput. -/
theorem test_idec_wrongType :
    gives (afterWord (imaging actS2 0x200#32 0x00010002#32 1#32 0x300#32 [(0x201, 0xFF#8)]) 0x23)
      (fun t => t.mem == [(0x201, 0xFF#8)] && t.dstDim == 0#32 && t.status == 0x00010011#32) = true := by
  decide +kernel

/-! ### The host's accesses -/

/-- R31: bits 31:8 of SRC_FMT ignore writes. -/
theorem test_write_fmt : gives (step (pending (.write .word 0x24#32 0xFFFFFF02#32)))
    (fun t => t.srcFmt == 0x00000002#32 && t.host == []) = true := by decide +kernel
/-- R36: CLRERR clears the sticky bits and leaves VALID and LAST. -/
theorem test_clrErr :
    gives (step { State.reset with status := 0x000303F1#32, host := [.write .word 0x04#32 0x000003F0#32] })
      (fun t => t.status == 0x00030001#32) = true := by decide +kernel
/-- R34: an offset from 0x34 upward reads 0. -/
theorem test_read_above : gives (step { pending (.read .word 0x34#32) with readData := 7#32 })
    (fun t => t.readData == 0#32) = true := by decide +kernel

/-- R87: each of the two kinds of illegal word leaves E_CMD and LAST = 5. -/
theorem test_illegal_words :
    gives (afterWord State.reset 0x00000000) (fun t => t.status == 0x00050100#32) = true ∧
      gives (afterWord State.reset 0x01000101) (fun t => t.status == 0x00050100#32 && t.result == 0#32) = true := by
  decide +kernel

/-- Right after Reset a step runs the word written to CMD, on every row of the table: here one that completes and one
that reports NoConfig. -/
theorem test_first_step :
    decodeTableWord 32 0x00000022 = some .ienc ∧
      gives (afterWord State.reset 0x00000022) (fun t => t.status == 0x00040080#32 && t.host == []) = true := by
  decide +kernel

/-! ### Numerics -/

/-- Part 3 of 95: the binary32 nearest 0.001, the smallest subnormal, and -1.0 (R121). -/
theorem test_f32 :
    f32val 0x3A83126F#32 = .finite (mkRat 8589935 8589934592) ∧ f32val 0x00000001#32 = .finite (mkRat 1 (2 ^ 149)) ∧
      f32val 0xBF800000#32 = .finite (-1) ∧ f32val 0x7FC00000#32 = .nan ∧ f32val 0x7F800000#32 = .inf := by
  decide +kernel

/-- S8: ties go away from zero (SFWD 1 from 0 to 4 is 383, SINV 1529 from 0 to 765 is 765), and S7: SINV 1003 saturates. -/
theorem test_ties : scaleFwd ⟨0, 4, 4, false⟩ 1#16 = 383 ∧ scaleInv ⟨0, 765, 765, false⟩ 1529 = 765#16 ∧
    scaleInv ⟨0, mkRat 171798691840 1717987, mkRat 171798691840 1717987, false⟩ 1003 = 65535#16 := by decide +kernel

/-! ### Witnesses: encoding -/

theorem witness_EveryOperationRoundTrips :
    (Instr.venc 65535#16).wellFormed = true ∧ (Instr.pdec 0#8 255#8 254#8).wellFormed = true ∧
      decode 0x00FFFF01#32 = .ok (.venc 65535#16) := by decide

/-- A word of every row, one of no row, and one that differs from a row in one must-be-zero bit. -/
theorem witness_DecoderAcceptsExactlyTheTable :
    (∀ row ∈ opcodeTable, row.pattern &&& row.mask = row.pattern) ∧
      (∀ row ∈ opcodeTable, 0x000000FF#32 &&& row.mask ≠ row.pattern) ∧
      ∀ row ∈ opcodeTable, 0x01000001#32 &&& row.mask ≠ row.pattern := by decide

/-- A word for each case: the highest operand of each format, and the three kinds of illegal word. -/
theorem witness_DecodingReadsTheFieldsOfTheWord :
    ((0x00FFFF01#32).toNat % 256 = 0x01 ∧ (0x00FFFF01#32).toNat / 2 ^ 24 = 0) ∧
      (0xFFFFFF02#32).toNat % 256 = 0x02 ∧ ((0x00000010#32).toNat % 256 = 0x10 ∧ (0x00000010#32).toNat / 2 ^ 8 = 0) ∧
      (0x01000001#32).toNat / 2 ^ 24 ≠ 0 ∧ (0x00000110#32).toNat / 2 ^ 8 ≠ 0 ∧
      (0xFFFFFFFF#32).toNat % 256 ∉ [0x01, 0x02, 0x10, 0x11, 0x12, 0x20, 0x21, 0x22, 0x23] := by decide

/-- One word for each of the three kinds, at the boundary of its field. -/
theorem witness_IllegalCommandOnlyReports :
    (pending (.write .word 0x00#32 0x00000024#32)).host = .write .word 0x00#32 0x00000024#32 :: [] ∧
      (0x00000024#32).toNat % 256 ∉ [0x01, 0x02, 0x10, 0x11, 0x12, 0x20, 0x21, 0x22, 0x23] ∧
      ((0x00000123#32).toNat % 256 ∈ [0x10, 0x22, 0x23] ∧ (0x00000123#32).toNat / 256 ≠ 0) ∧
      ((0x80000020#32).toNat % 256 ∈ [0x01, 0x11, 0x12, 0x20] ∧ (0x80000020#32).toNat / 2 ^ 24 ≠ 0) := by decide

theorem witness_AssemblerMakesNoIllegalCommand :
    AsmOp.wellFormed (.sfwd 65536) = false ∧ AsmOp.wellFormed (.sfwd 65535) = true ∧
      AsmOp.wellFormed (.pdec 255 0 256) = false ∧ AsmOp.wellFormed (.pdec 255 0 255) = true := by decide

/-! ### Witnesses: the step and the host's accesses -/

theorem witness_StepRunsTheDecodedCommand :
    (pending (.write .word 0x00#32 0x00000022#32)).host = .write .word 0x00#32 0x00000022#32 :: [] ∧
      decode 0x00000022#32 = .ok .ienc ∧ State.reset.host = [] := by decide

theorem witness_ResetClearsEveryRegister :
    ({ configured actS2 with host := [.reset, .reset] } : State).host = .reset :: [.reset] := rfl

theorem witness_ResetLeavesTheOutside :
    ({ configured actS2 with host := [.reset, .reset], draws := 3 } : State).host = .reset :: [.reset] := rfl

/-- Every offset of the window, and both ends of what lies above it. -/
theorem witness_HostReadReturnsTheRegister :
    ∀ n ∈ [0x00, 0x04, 0x08, 0x0C, 0x10, 0x14, 0x18, 0x1C, 0x20, 0x24, 0x28, 0x2C, 0x30, 0x34, 0xFFFFFFFC],
      (pending (.read .word (BitVec.ofNat 32 n))).host = .read .word (BitVec.ofNat 32 n) :: [] ∧
        (BitVec.ofNat 32 n).toNat = n ∧ n % 4 = 0 := by decide +kernel

theorem witness_HostWriteStoresTheWritableBits :
    ∀ n ∈ [0x08, 0x0C, 0x10, 0x14, 0x18, 0x1C, 0x20, 0x24, 0x28, 0x2C, 0x30, 0x34, 0xFFFFFFFC],
      (pending (.write .word (BitVec.ofNat 32 n) 0xFFFFFFFF#32)).host =
          .write .word (BitVec.ofNat 32 n) 0xFFFFFFFF#32 :: [] ∧
        (BitVec.ofNat 32 n).toNat = n ∧ n % 4 = 0 ∧ n ≠ 0x00 ∧ n ≠ 0x04 := by decide +kernel

theorem witness_StatusWriteClearsWrittenStickyBits :
    (pending (.write .word 0x04#32 0xFFFFFFFF#32)).host = .write .word 0x04#32 0xFFFFFFFF#32 :: [] := rfl

/-- The three kinds of undefined access, and what the step answers to each. -/
theorem witness_OnlyUndefinedAccessesAreRefused :
    (match step (pending (.write .byte 0x04#32 0#32)) with
      | .refused r => r = .registerAccessUndefined | _ => False) ∧
    (match step (pending (.read .half 0x08#32)) with
      | .refused r => r = .registerAccessUndefined | _ => False) ∧
    (match step (pending (.read .word 0x0A#32)) with
      | .refused r => r = .registerAccessUndefined | _ => False) := ⟨rfl, rfl, rfl⟩

theorem witness_HostStoreChangesOneByte :
    Memory.wf State.reset.mem = true ∧
      (pending (.memStore 0xFFFFFFFF#32 0x5A#8)).host = .memStore 0xFFFFFFFF#32 0x5A#8 :: [] := by decide

theorem witness_SetSrcDescribesTheSource :
    ∃ acts, expandStmt (.setSrc 0x1000#32 65535#16 1#16 0xFFFFFF02#32) = some acts ∧
      ({ State.reset with host := acts ++ [.reset] } : State).host = acts ++ [.reset] := ⟨_, rfl, rfl⟩

/-! ### Witnesses: error reports -/

/-- A success, and an error. -/
theorem witness_OperationReportsAtMostOneError :
    (∃ t, exec (.venc 1530#16) State.reset = .next t) ∧ ∃ t, exec (.venc 1531#16) State.reset = .next t :=
  ⟨⟨_, rfl⟩, ⟨_, rfl⟩⟩

theorem witness_NoConfigOnlyReports :
    ∀ i ∈ [Instr.sfwd 0#16, .sinv 0#16, .penc 0#16, .pdec 0#8 0#8 0#8, .ienc, .idec],
      needsConfig i = true ∧ State.reset.status.getLsbD 0 = false := by decide

theorem witness_UnspecifiedContextIsNeverRead :
    (Instr.ienc ≠ .cfg ∧ (State.reset.status.getLsbD 0 = false ∨ needsConfig .ienc = false)) ∧
      (Instr.venc 1#16 ≠ .cfg ∧
        ((configured actS2).status.getLsbD 0 = false ∨ needsConfig (.venc 1#16) = false)) :=
  ⟨⟨by decide, .inl (by decide)⟩, ⟨by decide, .inr rfl⟩⟩

/-- Both ends of the sticky bits. -/
theorem witness_NoOperationClearsStickyBits :
    (∃ t, exec (.vdec 0#8 0#8 0#8) { State.reset with status := 0x00000210#32 } = .next t) ∧
      (0x00000210#32).getLsbD 4 = true ∧ (0x00000210#32).getLsbD 9 = true := ⟨⟨_, rfl⟩, by decide, by decide⟩

/-! ### Witnesses: the Value Codec -/

/-- Both ends of every segment of the table. -/
theorem witness_VencFollowsTheSegmentTable :
    (0#16).toNat = 0 ∧ (1 ≤ (1#16).toNat ∧ (255#16).toNat ≤ 255) ∧ (256 ≤ (256#16).toNat ∧ (510#16).toNat ≤ 510) ∧
      (511 ≤ (511#16).toNat ∧ (765#16).toNat ≤ 765) ∧ (766 ≤ (766#16).toNat ∧ (1020#16).toNat ≤ 1020) ∧
      (1021 ≤ (1021#16).toNat ∧ (1275#16).toNat ≤ 1275) ∧ (1276 ≤ (1276#16).toNat ∧ (1530#16).toNat ≤ 1530) ∧
      1530 < (1531#16).toNat ∧ 1530 < (65535#16).toNat := by decide

/-- The sum threshold, and each dominant channel where it ties with another. -/
theorem witness_VdecFollowsTheDominantChannel :
    (43#8).toNat + (43#8).toNat + (42#8).toNat ≤ 128 ∧ 128 < (43#8).toNat + (43#8).toNat + (43#8).toNat ∧
      (128 < (255#8).toNat + (255#8).toNat + (0#8).toNat ∧ (255#8).toNat ≤ (255#8).toNat ∧ (0#8).toNat ≤ (255#8).toNat) ∧
      (128 < (255#8).toNat + (0#8).toNat + (255#8).toNat ∧ (0#8).toNat ≤ (255#8).toNat ∧
        (255#8).toNat ≤ (255#8).toNat ∧ (0#8).toNat < (255#8).toNat) ∧
      (128 < (0#8).toNat + (255#8).toNat + (255#8).toNat ∧ (0#8).toNat < (255#8).toNat ∧
        (255#8).toNat ≤ (255#8).toNat) ∧
      (128 < (0#8).toNat + (254#8).toNat + (255#8).toNat ∧ (0#8).toNat < (255#8).toNat ∧
        (254#8).toNat < (255#8).toNat) := by decide

theorem witness_EveryLevelRoundTrips :
    (0 ≤ 1530 ∧ 1530 ≤ 1530 ∧ vEnc 1530 = vEnc 1530) ∧ 1530 < 1531 := by decide

theorem witness_DecodedLevelsLieInTheirRanges :
    128 < (43#8).toNat + (43#8).toNat + (43#8).toNat ∧ (vDec ⟨43#8, 43#8, 43#8⟩ = 1 ∧ vDec ⟨255#8, 255#8, 0#8⟩ = 256) ∧
      (vDec ⟨255#8, 0#8, 255#8⟩ = 1276 ∧ vDec ⟨255#8, 0#8, 1#8⟩ = 1530) ∧
      (vDec ⟨254#8, 255#8, 0#8⟩ = 257 ∧ vDec ⟨0#8, 255#8, 255#8⟩ = 766) ∧
      (vDec ⟨0#8, 254#8, 255#8⟩ = 767 ∧ vDec ⟨254#8, 0#8, 255#8⟩ = 1275) := by decide

/-- A code point and a triple that is none. -/
theorem witness_OnlyCodePointsReencodeToThemselves :
    (vEnc 1530 = ⟨255#8, 0#8, 1#8⟩ ∧ 1530 ≤ 1530) ∧ vEnc (vDec ⟨200#8, 100#8, 50#8⟩) ≠ ⟨200#8, 100#8, 50#8⟩ := by decide

/-! ### Witnesses: the Range Scaler -/

/-- Both ends of every kind of pattern. -/
theorem witness_Binary32PatternsHaveTheirValue :
    (∀ p ∈ [0x7F800001, 0xFFFFFFFF], p < 2 ^ 32 ∧ p / 2 ^ 23 % 256 = 255 ∧ p % 2 ^ 23 ≠ 0) ∧
      (∀ p ∈ [0x7F800000, 0xFF800000], p < 2 ^ 32 ∧ p / 2 ^ 23 % 256 = 255 ∧ p % 2 ^ 23 = 0) ∧
      (∀ p ∈ [0x00000000, 0x807FFFFF], p < 2 ^ 32 ∧ p / 2 ^ 23 % 256 = 0) ∧
      ∀ p ∈ [0x00800000, 0xFF7FFFFF], p < 2 ^ 32 ∧ 1 ≤ p / 2 ^ 23 % 256 ∧ p / 2 ^ 23 % 256 ≤ 254 := by decide

/-- A tie at zero on either side. -/
theorem witness_RoundingIsToNearestTiesAway :
    (∃ q : Rat, (0 : Int) ≤ 0 ∧ q = ((0 : Int) : Rat) + 1 / 2 ∧ roundAway q = 1) ∧
      ∃ q : Rat, (0 : Int) ≤ 0 ∧ q = ((0 : Int) : Rat) - 1 / 2 ∧ roundAway q = -1 :=
  ⟨⟨mkRat 1 2, by decide, by norm_num [Rat.mkRat_eq_div], by decide +kernel⟩,
    ⟨mkRat (-1) 2, by decide, by norm_num [Rat.mkRat_eq_div], by decide +kernel⟩⟩

/-- Linear, inverse with positive bounds, and inverse with a zero minimum. -/
theorem witness_CfgCommitsTheDerivedBounds :
    (∀ x ∈ [(staged 0x3F800000#32 0x40800000#32 0x3F000000#32 0#32, (1 : Rat), false),
        (staged 0x3F800000#32 0x40800000#32 0x3F000000#32 1#32, 1, true),
        (staged 0x00000000#32 0x40800000#32 0x3F000000#32 1#32, 0, true)],
      f32val x.1.cfgMinM = .finite x.2.1 ∧ f32val x.1.cfgMaxM = .finite 4 ∧ f32val x.1.cfgScale = .finite (mkRat 1 2) ∧
        0 < mkRat 1 2 ∧ 0 ≤ x.2.1 ∧ (0 : Rat) < 4 ∧ x.2.1 ≠ 4 ∧ x.1.cfgMode.getLsbD 0 = x.2.2) ∧
      ((0 : Rat) < 1 ∧ (4 : Rat) / mkRat 1 2 ≠ mkRat 1 (10 ^ 9)) := by decide +kernel

/-- Each reason to refuse: a NaN, an infinity, a zero and a negative scale, a negative minimum and maximum, a zero maximum
in inverse mode, equal bounds, and a maximum that equals the epsilon substituted for the minimum. -/
theorem witness_CfgRefusesUnusableValues :
    (∀ q, f32val (staged 0x7FC00000#32 0x3F800000#32 0x3F800000#32 0#32).cfgMinM ≠ .finite q) ∧
      (∀ q, f32val (staged 0x00000000#32 0x7F800000#32 0x3F800000#32 0#32).cfgMaxM ≠ .finite q) ∧
      (∀ q, f32val (staged 0x00000000#32 0x3F800000#32 0xFF800000#32 0#32).cfgScale ≠ .finite q) ∧
      ∀ x ∈ [(staged 0x3F800000#32 0x40800000#32 0x00000000#32 0#32, (1 : Rat), (4 : Rat), (0 : Rat)),
          (staged 0x3F800000#32 0x40800000#32 0xBF800000#32 0#32, 1, 4, -1),
          (staged 0xBF800000#32 0x40800000#32 0x3F800000#32 0#32, -1, 4, 1),
          (staged 0x3F800000#32 0xBF800000#32 0x3F800000#32 0#32, 1, -1, 1),
          (staged 0x3F800000#32 0x80000000#32 0x3F800000#32 1#32, 1, 0, 1),
          (staged 0x3F800000#32 0x3F800000#32 0x3F800000#32 0#32, 1, 1, 1),
          (staged 0x00000000#32 0x3F800000#32 0x4E6E6B28#32 1#32, 0, 1, 1000000000)],
        f32val x.1.cfgMinM = .finite x.2.1 ∧ f32val x.1.cfgMaxM = .finite x.2.2.1 ∧
          f32val x.1.cfgScale = .finite x.2.2.2 ∧
          (x.2.2.2 ≤ 0 ∨ x.2.1 < 0 ∨ x.2.2.1 < 0 ∨ (x.1.cfgMode.getLsbD 0 = true ∧ x.2.2.1 = 0) ∨ x.2.1 = x.2.2.1 ∨
            (x.1.cfgMode.getLsbD 0 = true ∧ x.2.1 = 0 ∧ x.2.2.1 / x.2.2.2 = mkRat 1 (10 ^ 9))) := by
  have h1 : f32val 0x7FC00000#32 = .nan := by decide +kernel
  have h2 : f32val 0x7F800000#32 = .inf := by decide +kernel
  have h3 : f32val 0xFF800000#32 = .inf := by decide +kernel
  exact ⟨fun q h => F32Value.noConfusion (h1.symm.trans h), fun q h => F32Value.noConfusion (h2.symm.trans h),
    fun q h => F32Value.noConfusion (h3.symm.trans h), by decide +kernel⟩

/-- A state without a configuration, and one with. -/
theorem witness_SfwdGivesTheLevel :
    (State.Inv State.reset ∧ State.reset.status.getLsbD 0 = false) ∧
      (configured actS3).Inv ∧ (configured actS3).status.getLsbD 0 = true ∧ (configured actS3).act = some actS3 :=
  ⟨⟨reset_inv, by decide⟩, configured_inv actS3_sound, show (0x00000001#32).getLsbD 0 = true by decide, rfl⟩

theorem witness_SinvGivesTheSample :
    (State.Inv State.reset ∧ State.reset.status.getLsbD 0 = false) ∧
      (configured actS2).Inv ∧ (configured actS2).status.getLsbD 0 = true ∧ (configured actS2).act = some actS2 :=
  ⟨⟨reset_inv, by decide⟩, configured_inv actS2_sound, show (0x00000001#32).getLsbD 0 = true by decide, rfl⟩

/-- Both modes, and both orders of the bounds, with samples at and beyond them. -/
theorem witness_ForwardMapSaturatesAndIsMonotone :
    (actS2 = ⟨2, 8, 8 - 2, false⟩ ∧ (0 : Rat) ≤ 2 ∧ (0 : Rat) ≤ 8 ∧ (2 : Rat) < 8) ∧
      (actS3 = ⟨1 / 2, 1 / 8, 1 / 8 - 1 / 2, true⟩ ∧ (0 : Rat) < 2 ∧ (0 : Rat) < 8) ∧
      ((⟨8, 2, -6, false⟩ : Act) = ⟨8, 2, 2 - 8, false⟩ ∧ (2 : Rat) < 8) ∧
      (1 ≤ (2#16).toNat ∧ ((2#16).toNat : Rat) ≤ 2) ∧ (8 : Rat) ≤ ((8#16).toNat : Rat) ∧
      ((2#16).toNat ≤ (8#16).toNat ∧ (2 : Rat) ≤ ((2#16).toNat : Rat) ∧ ((8#16).toNat : Rat) ≤ 8) := by
  refine ⟨⟨?_, ?_⟩, ⟨?_, ?_⟩, ⟨?_, ?_⟩, ?_, ?_, ?_⟩ <;> norm_num [actS2, actS3]

/-- The configuration of vector S4: max_u = 1/10, and level 1530 rounds to 10. -/
theorem witness_EpsilonConfigurationDegenerates :
    (0 : Rat) < 1 / 10 ∧ (1 / 10 : Rat) < 10 ^ 9 ∧ 1 ≤ (1#16).toNat ∧ IsRounded (1 / (1 / 10)) 10 := by
  refine ⟨by norm_num, by norm_num, by decide, ?_⟩
  constructor <;> norm_num

theorem witness_ScalerMapsAreWellDefined :
    (configured actS3).Inv ∧ (configured actS3).act = some actS3 := ⟨configured_inv actS3_sound, rfl⟩

/-! ### Witnesses: pixels -/

theorem witness_PencIsSfwdThenVenc :
    (State.Inv State.reset ∧ State.reset.status.getLsbD 0 = false) ∧
      (configured actS2).Inv ∧ (configured actS2).status.getLsbD 0 = true :=
  ⟨⟨reset_inv, by decide⟩, configured_inv actS2_sound, show (0x00000001#32).getLsbD 0 = true by decide⟩

theorem witness_PdecIsVdecThenSinv :
    (State.Inv State.reset ∧ State.reset.status.getLsbD 0 = false) ∧
      (configured actS3).Inv ∧ (configured actS3).status.getLsbD 0 = true :=
  ⟨⟨reset_inv, by decide⟩, configured_inv actS3_sound, show (0x00000001#32).getLsbD 0 = true by decide⟩

theorem witness_PixelRoundTrip :
    (configured actS1).Inv ∧ (configured actS1).act = some actS1 ∧ actS1 = ⟨0, 1530, 1530, false⟩ :=
  ⟨configured_inv actS1_sound, rfl, rfl⟩

/-! ### Witnesses: images -/

/-- Two pixels at 0x1000 to 0x1004: the destination overlaps the source. -/
theorem witness_IencEncodesEveryPixel :
    (imaging actS1 0x1000#32 0x00010002#32 1#32 0x1002#32 []).Inv ∧
      (imaging actS1 0x1000#32 0x00010002#32 1#32 0x1002#32 []).act = some actS1 ∧
      PassReady (imaging actS1 0x1000#32 0x00010002#32 1#32 0x1002#32 []) 1 2 3 ∧
      SourceAdmitted (imaging actS1 0x1000#32 0x00010002#32 1#32 0x1002#32 []) 2 ∧
      DestAdmitted (imaging actS1 0x1000#32 0x00010002#32 1#32 0x1002#32 []) 3 :=
  ⟨imaging_inv actS1_sound (by decide) (by decide), rfl, ⟨by decide, by decide, by decide, by decide⟩,
    fun a _ h => admit_low _ (Nat.lt_trans h (by decide)), fun a _ h => admit_low _ (Nat.lt_trans h (by decide))⟩

theorem witness_IdecDecodesEveryPixel :
    (imaging actS3 0x1000#32 0x00020001#32 2#32 0x1001#32 []).Inv ∧
      (imaging actS3 0x1000#32 0x00020001#32 2#32 0x1001#32 []).act = some actS3 ∧
      PassReady (imaging actS3 0x1000#32 0x00020001#32 2#32 0x1001#32 []) 2 3 2 ∧
      SourceAdmitted (imaging actS3 0x1000#32 0x00020001#32 2#32 0x1001#32 []) 3 ∧
      DestAdmitted (imaging actS3 0x1000#32 0x00020001#32 2#32 0x1001#32 []) 2 :=
  ⟨imaging_inv actS3_sound (by decide) (by decide), rfl, ⟨by decide, by decide, by decide, by decide⟩,
    fun a _ h => admit_low _ (Nat.lt_trans h (by decide)), fun a _ h => admit_low _ (Nat.lt_trans h (by decide))⟩

/-- A type of neither image, an empty image, and each extent one byte past 2^32; and the state without a configuration. -/
theorem witness_ImagePassRefusesBadDescriptors :
    (∀ x ∈ [(0x1000#32, 0x00010002#32, 3#32, 0x2000#32), (0x1000#32, 0x00000002#32, 1#32, 0x2000#32),
        (0xFFFFFFFD#32, 0x00010002#32, 1#32, 0x2000#32), (0x1000#32, 0x00010002#32, 1#32, 0xFFFFFFFB#32)],
      (imaging actS1 x.1 x.2.1 x.2.2.1 x.2.2.2 []).Inv ∧
        (imaging actS1 x.1 x.2.1 x.2.2.1 x.2.2.2 []).status.getLsbD 0 = true ∧
        ¬ PassReady (imaging actS1 x.1 x.2.1 x.2.2.1 x.2.2.2 []) 1 2 3 ∧
        ¬ PassReady (imaging actS1 x.1 x.2.1 x.2.2.1 x.2.2.2 []) 2 3 2) ∧
      (State.Inv State.reset ∧ State.reset.status.getLsbD 0 = false) := by
  refine ⟨fun x hx => ?_, reset_inv, by decide⟩
  simp only [List.mem_cons, List.not_mem_nil, or_false] at hx
  have hv : ∀ src dim fmt dst : Word, (imaging actS1 src dim fmt dst []).status.getLsbD 0 = true :=
    fun _ _ _ _ => show (0x00000001#32).getLsbD 0 = true by decide
  rcases hx with rfl | rfl | rfl | rfl
  · exact ⟨imaging_inv actS1_sound (by decide) (by decide), hv .., fun h => absurd h.1 (by decide),
      fun h => absurd h.1 (by decide)⟩
  · exact ⟨imaging_inv actS1_sound (by decide) (by decide), hv .., fun h => h.2.1 (by decide),
      fun h => h.2.1 (by decide)⟩
  · exact ⟨imaging_inv actS1_sound (by decide) (by decide), hv .., fun h => absurd h.2.2.1 (by decide),
      fun h => absurd h.1 (by decide)⟩
  · exact ⟨imaging_inv actS1_sound (by decide) (by decide), hv .., fun h => absurd h.2.2.2 (by decide),
      fun h => absurd h.1 (by decide)⟩

/-- A source whose last byte lies in the register window; and a destination whose last byte does, with its source read. -/
theorem witness_BusErrorsFollowTheirPhase :
    ((imaging actS1 0x7FFFFFFF#32 0x00010001#32 1#32 0x1000#32 []).Inv ∧
        (imaging actS1 0x7FFFFFFF#32 0x00010001#32 1#32 0x1000#32 []).status.getLsbD 0 = true ∧
        PassReady (imaging actS1 0x7FFFFFFF#32 0x00010001#32 1#32 0x1000#32 []) 1 2 3 ∧
        ¬ SourceAdmitted (imaging actS1 0x7FFFFFFF#32 0x00010001#32 1#32 0x1000#32 []) 2) ∧
      ((imaging actS1 0x1000#32 0x00010001#32 2#32 0x7FFFFFFF#32 []).Inv ∧
        (imaging actS1 0x1000#32 0x00010001#32 2#32 0x7FFFFFFF#32 []).status.getLsbD 0 = true ∧
        PassReady (imaging actS1 0x1000#32 0x00010001#32 2#32 0x7FFFFFFF#32 []) 2 3 2 ∧
        SourceAdmitted (imaging actS1 0x1000#32 0x00010001#32 2#32 0x7FFFFFFF#32 []) 3 ∧
        ¬ DestAdmitted (imaging actS1 0x1000#32 0x00010001#32 2#32 0x7FFFFFFF#32 []) 2) := by
  have hw : ∀ k, memAdmit Config.platform 0x80000000 k = false := fun k => by cases k <;> decide
  refine ⟨⟨imaging_inv actS1_sound (by decide) (by decide), show (0x00000001#32).getLsbD 0 = true by decide,
      ⟨by decide, by decide, by decide, by decide⟩, fun h => ?_⟩,
    ⟨imaging_inv actS1_sound (by decide) (by decide), show (0x00000001#32).getLsbD 0 = true by decide,
      ⟨by decide, by decide, by decide, by decide⟩, fun a _ h => admit_low _ (Nat.lt_trans h (by decide)), fun h => ?_⟩⟩
  · exact Bool.noConfusion ((hw .read).symm.trans (h 0x80000000 (by decide) (by decide)))
  · exact Bool.noConfusion ((hw .write).symm.trans (h 0x80000000 (by decide) (by decide)))

theorem witness_ImageRoundTrip :
    (imaging actS1 0x1000#32 0x00010002#32 1#32 0x2000#32 []).Inv ∧
      (imaging actS1 0x1000#32 0x00010002#32 1#32 0x2000#32 []).act = some actS1 ∧
      PassReady (imaging actS1 0x1000#32 0x00010002#32 1#32 0x2000#32 []) 1 2 3 ∧
      SourceAdmitted (imaging actS1 0x1000#32 0x00010002#32 1#32 0x2000#32 []) 2 ∧
      DestAdmitted (imaging actS1 0x1000#32 0x00010002#32 1#32 0x2000#32 []) 3 ∧
      DestAdmitted { imaging actS1 0x1000#32 0x00010002#32 1#32 0x2000#32 [] with
        srcAddr := 0x2000#32, dstAddr := 0x3000#32 } 2 ∧
      SourceAdmitted { imaging actS1 0x1000#32 0x00010002#32 1#32 0x2000#32 [] with srcAddr := 0x2000#32 } 3 ∧
      (0x3000#32).toNat + 2 * pixelCount (imaging actS1 0x1000#32 0x00010002#32 1#32 0x2000#32 []) ≤ 2 ^ 32 ∧
      (0 < pixelCount (imaging actS1 0x1000#32 0x00010002#32 1#32 0x2000#32 []) ∧
        (sampleAt [] 0x1000).toNat ≤ 1530) := by
  refine ⟨imaging_inv actS1_sound (by decide) (by decide), rfl, ⟨by decide, by decide, by decide, by decide⟩, ?_, ?_, ?_,
    ?_, by decide, by decide, by decide⟩ <;>
  exact fun a _ h => admit_low _ (Nat.lt_trans h (by decide))

/-! ### Witnesses: memory -/

/-- An access that is admitted whole, one whose last byte is not, and one at the top of the address space. -/
theorem witness_MemReadIsLittleEndian :
    (0x1000 + 2 ≤ 2 ^ 32 ∧ ∀ x, 0x1000 ≤ x → x < 0x1000 + 2 → memAdmit Config.platform x .read = true) ∧
      (0x7FFFFFFF + 2 ≤ 2 ^ 32 ∧ ∃ x, 0x7FFFFFFF ≤ x ∧ x < 0x7FFFFFFF + 2 ∧ memAdmit Config.platform x .read = false) ∧
      0xFFFFFFFE + 2 ≤ 2 ^ 32 :=
  ⟨⟨by decide, fun x _ h => admit_low _ (by omega)⟩, ⟨by decide, 0x80000000, by decide, by decide, by decide⟩,
    by decide⟩

theorem witness_MemWriteStoresItsBytes :
    (Memory.wf [(0x1000, 0x01#8)] = true ∧ 0x1000 + 2 ≤ 2 ^ 32 ∧ 65535 < 256 ^ 2 ∧
        ∀ x, 0x1000 ≤ x → x < 0x1000 + 2 → memAdmit Config.platform x .write = true) ∧
      (0x7FFFFFFF + 2 ≤ 2 ^ 32 ∧ ∃ x, 0x7FFFFFFF ≤ x ∧ x < 0x7FFFFFFF + 2 ∧ memAdmit Config.platform x .write = false) ∧
      0xFFFFFFFF + 1 ≤ 2 ^ 32 :=
  ⟨⟨by decide, by decide, by decide, fun x _ h => admit_low _ (by omega)⟩,
    ⟨by decide, 0x80000000, by decide, by decide, by decide⟩, by decide⟩

/-- Both ends of the window, and the first address outside the space. -/
theorem witness_RegisterWindowIsNeverAdmitted :
    (∀ a ∈ [0x80000000, 0x80000033], Config.platform.hueBase.toNat ≤ a ∧ a < Config.platform.hueBase.toNat + 0x34) ∧
      2 ^ 32 ≤ 4294967296 := by decide

theorem witness_CanonicalMemoryIsItsContents :
    Memory.wf (Memory.write (Memory.write [] 2 0x07#8) 1 0x05#8) = true ∧ Memory.wf [(1, 0x05#8), (2, 0x07#8)] = true ∧
      ∀ a, Memory.read (Memory.write (Memory.write [] 2 0x07#8) 1 0x05#8) a = Memory.read [(1, 0x05#8), (2, 0x07#8)] a :=
  ⟨by decide, by decide, fun _ => rfl⟩

theorem witness_WriteOrderIsUnobservable :
    Memory.wf [(4, 0x01#8)] = true ∧ (∀ x ∈ [(0, 0x05#8), (0xFFFFFFFF, 0x06#8)], x.1 < 2 ^ 32) ∧
      ([(0, 0x05#8), (0xFFFFFFFF, 0x06#8)].map Prod.fst).Nodup ∧
      [(0, 0x05#8), (0xFFFFFFFF, 0x06#8)].Perm [(0xFFFFFFFF, 0x06#8), (0, 0x05#8)] :=
  ⟨by decide, by decide, by decide, List.Perm.swap ..⟩

/-! ### Witnesses: the whole machine -/

/-- An operation of each kind that answers a next state. -/
theorem witness_OperationsWriteOnlyTheirState :
    (∃ t, exec .cfg State.reset = .next t) ∧ (∃ t, exec (.vdec 1#8 2#8 3#8) State.reset = .next t) ∧
      (∃ t, exec .ienc (configured actS2) = .next t) ∧ usesMemory .ienc = true ∧ usesMemory .cfg = false := by
  refine ⟨?_, ⟨_, rfl⟩, ⟨_, rfl⟩, rfl, rfl⟩
  rw [exec, execCfg]
  split <;> exact ⟨_, rfl⟩

theorem witness_ScalarOperationsIgnoreMemory :
    ∀ i ∈ [Instr.venc 0#16, .vdec 0#8 0#8 0#8, .cfg, .sfwd 0#16, .sinv 0#16, .penc 0#16, .pdec 0#8 0#8 0#8],
      usesMemory i = false := by decide

theorem witness_StagingReachesOnlyCfg : Instr.sfwd 5#16 ≠ .cfg ∧ Instr.ienc ≠ .cfg := by decide

theorem witness_ResetMeetsTheInvariant : Memory.wf [(0xFFFFFFFF, 0x01#8)] = true := by decide

/-- A step of a configured machine that runs an operation. -/
theorem witness_StepKeepsTheInvariant :
    ((configured actS2).withFetchWord 32 0x22).Inv ∧ ∃ t, afterWord (configured actS2) 0x22 = .next t := by
  obtain ⟨a, b, c, d, e, f, g, h, i, j⟩ := configured_inv actS2_sound
  exact ⟨⟨a, b, c, d, e, f, g, h, i, j⟩, ⟨_, rfl⟩⟩

theorem witness_EveryOperationCompletes : State.Inv State.reset ∧ (configured actS3).Inv :=
  ⟨reset_inv, configured_inv actS3_sound⟩

/-- A state outside the invariant in which an operation would read what has no value. -/
theorem witness_FaultOnlyWithoutContext :
    needsConfig (.sfwd 5#16) = true ∧ ({ State.reset with status := 0x00000001#32 } : State).status.getLsbD 0 = true ∧
      ({ State.reset with status := 0x00000001#32 } : State).act = none ∧
      (needsConfig .ienc = true ∧ ({ configured actS2 with lut := none } : State).lut = none) :=
  ⟨rfl, by decide, rfl, rfl, rfl⟩

end Sys2Proof.Tests
end

section
/-! PROOF. The state and its resets (spec/10_state.md): what a step does with a host write to a register and with Reset,
what a report leaves in STATUS, the operations without a valid configuration, and the values CFG refuses. -/

namespace Sys2Proof.Machine

/-! ### The step on the host's next action -/

/-- R13, R21: a step performs the host's next action on the state with the action taken. -/
theorem step_of_host_cons {s : State} {a : HostAction} {rest : List HostAction} (h : s.host = a :: rest) :
    step s = perform a { s with host := rest } := by
  simp only [step, h]

/-- R23: the offset of a register names that register. -/
theorem regAt_regOffset (r : Reg) : regAt (regOffset r) = some r := by cases r <;> rfl

/-- R34: an aligned 32-bit access to a register is defined. -/
theorem accessDefined_regOffset (r : Reg) : accessDefined .word (regOffset r) = true := by cases r <;> rfl

/-- A 32-bit host write at a register's offset writes that register. -/
theorem hostWrite_regOffset (r : Reg) (v : Word) (s : State) :
    hostWrite .word (regOffset r) v s = writeReg r v s := by
  simp only [hostWrite, accessDefined_regOffset, regAt_regOffset, if_true]

/-- A step with a register write pending writes that register, the action taken. -/
theorem step_of_host_write {s : State} (r : Reg) {v : Word} {rest : List HostAction}
    (h : s.host = .write .word (regOffset r) v :: rest) : step s = writeReg r v { s with host := rest } :=
  (step_of_host_cons h).trans (hostWrite_regOffset r v _)

/-! ### Reset -/

/-- R43: every register reads 0 in a state after Reset. -/
@[simp] theorem readReg_resetOn (p : Platform) (m : Memory) (r : Reg) : readReg (State.resetOn p m) r = 0#32 := by
  cases r <;> rfl

/-- R43, R201: every register reads 0 after the event Reset. -/
@[simp] theorem readReg_resetEvent (s : State) (r : Reg) : readReg (resetEvent s) r = 0#32 := by cases r <;> rfl

/-! ### What a write and a report leave in STATUS -/

/-- R36 bit by bit: a host write of `v` clears bit `i` exactly when it is one of the sticky bits 4 to 9 and `v` has it
set. -/
theorem statusHostWrite_bit (w v : Word) {i : Nat} (hi : i < 32) :
    (statusHostWrite w v).getLsbD i = if 4 ≤ i ∧ i ≤ 9 ∧ v.getLsbD i = true then false else w.getLsbD i := by
  by_cases hs : 4 ≤ i ∧ i ≤ 9
  · rw [statusHostWrite_sticky w v i hs.1 hs.2]
    cases v.getLsbD i <;> simp [hs]
  · rw [statusHostWrite_getLsbD w v i hi (by omega), if_neg (fun h => hs ⟨h.1, h.2.1⟩)]

/-- The error report bit by bit outside LAST: its sticky bit is set and every other bit is as before (R190). -/
theorem raiseError_bit (e : ErrorKind) (s : State) {i : Nat} (hi : i < 32) (hout : i < 16 ∨ 20 ≤ i) :
    (raiseError e s).status.getLsbD i = if i = stickyBit e then true else s.status.getLsbD i := by
  rw [raiseError_status, setLast_getLsbD _ _ _ hi hout, setBit_getLsbD _ _ _ _ hi]

/-- The error report in the terms of Safety (R190). -/
theorem raiseError_errReport (e : ErrorKind) (s : State) :
    ErrReport (errorCode e) s.status (raiseError e s).status := by
  have hlt := stickyBit_lt e
  refine ⟨raiseError_last e s, ?_, fun i hi hout hne => ?_⟩
  · exact (raiseError_bit e s (i := stickyBit e) (by omega) (by omega)).trans (if_pos rfl)
  · exact (raiseError_bit e s hi hout).trans (if_neg hne)

/-! ### Operations and the configuration -/

/-- R184: an operation that needs a configuration only reports NoConfig while STATUS.VALID = 0. -/
theorem exec_noConfig {i : Instr} {s : State} (hn : needsConfig i = true) (hv : statusValid s.status = false) :
    exec i s = .next (raiseError .noConfig s) := by
  cases i with
  | venc | vdec | cfg => exact Bool.noConfusion hn
  | sfwd | sinv | penc | pdec | ienc | idec => exact withAct_noConfig _ hv

/-- R45: VENC neither reads nor writes ACT and LUT. -/
theorem execVenc_context (v : Sample) (s : State) (act : Option Act) (lut : Option Lut) :
    execVenc v { s with act := act, lut := lut } =
      mapNext (fun t => { t with act := act, lut := lut }) (execVenc v s) := by
  by_cases hv : Config.levelMax < v.toNat
  · simp only [execVenc, if_pos hv]
    rfl
  · simp only [execVenc, if_neg hv]
    rfl

/-- R45: VDEC neither reads nor writes ACT and LUT. -/
theorem execVdec_context (r g b : Byte) (s : State) (act : Option Act) (lut : Option Lut) :
    execVdec r g b { s with act := act, lut := lut } =
      mapNext (fun t => { t with act := act, lut := lut }) (execVdec r g b s) := rfl

/-- R45: an operation other than CFG commutes with putting other values in ACT and LUT, while they are unspecified or
when it needs none. -/
theorem exec_context {i : Instr} {s : State} (act : Option Act) (lut : Option Lut) (hc : i ≠ .cfg)
    (h : statusValid s.status = false ∨ needsConfig i = false) :
    exec i { s with act := act, lut := lut } = mapNext (fun t => { t with act := act, lut := lut }) (exec i s) := by
  cases hn : needsConfig i with
  | true =>
    have hv : statusValid s.status = false := h.resolve_right (by simp [hn])
    rw [exec_noConfig hn hv, exec_noConfig (s := { s with act := act, lut := lut }) hn hv]
    rfl
  | false =>
    cases i with
    | venc v => exact execVenc_context v s act lut
    | vdec r g b => exact execVdec_context r g b s act lut
    | cfg => exact absurd rfl hc
    | sfwd | sinv | penc | pdec | ienc | idec => exact Bool.noConfusion hn

/-! ### The values CFG refuses -/

/-- R128: a NaN or an infinity among the three staging values has no configuration. -/
theorem deriveConfig_of_not_finite {pMin pMax pScale : Word} (inv : Bool)
    (h : (∀ q, f32val pMin ≠ .finite q) ∨ (∀ q, f32val pMax ≠ .finite q) ∨ (∀ q, f32val pScale ≠ .finite q)) :
    deriveConfig pMin pMax pScale inv = none := by
  unfold deriveConfig
  split
  case h_1 m mx sc hm hmx hsc =>
    rcases h with h | h | h
    · exact absurd hm (h m)
    · exact absurd hmx (h mx)
    · exact absurd hsc (h sc)
  case h_2 => rfl

/-- R131: equal bounds have no configuration. -/
@[simp] theorem actOfBounds_self (q : Rat) (inv : Bool) : actOfBounds q q inv = none := by
  simp [actOfBounds]

section Finite

variable {pMin pMax pScale : Word} {m mx sc : Rat} (hm : f32val pMin = .finite m) (hmx : f32val pMax = .finite mx)
  (hsc : f32val pScale = .finite sc)

include hm hmx hsc

/-- R128: a scale that is not positive, or a negative bound, has no configuration. -/
theorem deriveConfig_of_out_of_range (inv : Bool) (h : sc ≤ 0 ∨ m < 0 ∨ mx < 0) :
    deriveConfig pMin pMax pScale inv = none := by
  simp only [deriveConfig, hm, hmx, hsc, if_pos h]

/-- R129, R131: linear mode takes the two quotients as bounds. -/
theorem deriveConfig_linear (h : ¬ (sc ≤ 0 ∨ m < 0 ∨ mx < 0)) :
    deriveConfig pMin pMax pScale false = (actOfBounds (m / sc) (mx / sc) false).map fun act => (act, false) := by
  simp [deriveConfig, hm, hmx, hsc, if_neg h]

/-- R129, R130: inverse mode refuses a zero maximum, and else takes the reciprocals, with EPS for a zero minimum. -/
theorem deriveConfig_inverse (h : ¬ (sc ≤ 0 ∨ m < 0 ∨ mx < 0)) :
    deriveConfig pMin pMax pScale true =
      if mx / sc = 0 then none
      else (actOfBounds (1 / epsGuard (m / sc)) (1 / (mx / sc)) true).map fun act => (act, decide (m / sc = 0)) := by
  simp only [deriveConfig, hm, hmx, hsc, if_neg h, if_true]

/-- R130, R131: inverse mode has no configuration when the maximum is zero or the guarded minimum equals the maximum. -/
theorem deriveConfig_inverse_none (h : ¬ (sc ≤ 0 ∨ m < 0 ∨ mx < 0)) (hb : mx = 0 ∨ epsGuard (m / sc) = mx / sc) :
    deriveConfig pMin pMax pScale true = none := by
  rw [deriveConfig_inverse hm hmx hsc h]
  rcases hb with rfl | hb
  · rw [zero_div, if_pos rfl]
  · simp [hb]

/-- R131, R133, R183: finite values that are out of range, or that leave no range between the bounds, have no
configuration. -/
theorem deriveConfig_of_unusable {inv : Bool}
    (h : sc ≤ 0 ∨ m < 0 ∨ mx < 0 ∨ (inv = true ∧ mx = 0) ∨ m = mx ∨ (inv = true ∧ m = 0 ∧ mx / sc = 1 / 10 ^ 9)) :
    deriveConfig pMin pMax pScale inv = none := by
  by_cases hr : sc ≤ 0 ∨ m < 0 ∨ mx < 0
  · exact deriveConfig_of_out_of_range hm hmx hsc inv hr
  · have hb : (inv = true ∧ mx = 0) ∨ m = mx ∨ (inv = true ∧ m = 0 ∧ mx / sc = 1 / 10 ^ 9) := by tauto
    rcases hb with ⟨rfl, h0⟩ | rfl | ⟨rfl, rfl, hq⟩
    · exact deriveConfig_inverse_none hm hmx hsc hr (.inl h0)
    · cases inv with
      | false => rw [deriveConfig_linear hm hmx hsc hr, actOfBounds_self, Option.map_none]
      | true =>
        refine deriveConfig_inverse_none hm hmx hsc hr ?_
        by_cases h0 : m = 0
        · exact .inl h0
        · have hs : sc ≠ 0 := fun e => hr (.inl e.le)
          exact .inr (if_neg (div_ne_zero h0 hs))
    · refine deriveConfig_inverse_none hm hmx hsc hr (.inr ?_)
      rw [zero_div, epsGuard, if_pos rfl, eps_eq, hq]

end Finite

/-- R46, R133: a CFG without a derived configuration loses the old one and reports BadConfig. -/
theorem exec_cfg_of_none {s : State}
    (h : deriveConfig s.cfgMinM s.cfgMaxM s.cfgScale (modeInverse s.cfgMode) = none) :
    exec .cfg s = .next (raiseError .badConfig
      { s with act := none, lut := none, status := setEpsSub (setValid s.status false) false }) := by
  simp only [exec, execCfg, h]

/-- R133: clearing VALID and EPS_SUB and reporting BadConfig, in the terms of Safety. -/
theorem raiseError_badConfig_refuseReport {s t : State} (ht : t.status = setEpsSub (setValid s.status false) false) :
    RefuseReport s.status (raiseError .badConfig t).status := by
  have hbit {i : Nat} (hi : i < 32) (hout : i < 16 ∨ 20 ≤ i) := raiseError_bit .badConfig t hi hout
  refine ⟨?_, ?_, ?_, raiseError_last .badConfig t, fun i hi h2 hout h6 => ?_⟩
  · rw [← statusValid, raiseError_valid, ht, statusValid_setEpsSub, statusValid_setValid]
  · rw [← statusEpsSub, raiseError_epsSub, ht, statusEpsSub_setEpsSub]
  · exact (hbit (i := 6) (by omega) (by omega)).trans (if_pos rfl)
  · rw [hbit hi hout, if_neg (show i ≠ stickyBit .badConfig from h6), ht, setEpsSub_setValid_getLsbD _ _ _ h2 hi]

/-! ### The statements -/

/-- Settles O12: the step is the register write to STATUS, and R36 holds of it bit by bit. -/
theorem statusWriteClearsWrittenStickyBits : Obligations.StatusWriteClearsWrittenStickyBits := by
  intro s v rest h
  exact ⟨_, step_of_host_write .status h, rfl, fun _ hi => statusHostWrite_bit s.status v hi⟩

/-- Settles O19: without a valid configuration an operation that needs one only reports NoConfig, and the two operations
that need none do not look at ACT and LUT. -/
theorem unspecifiedContextIsNeverRead : Obligations.UnspecifiedContextIsNeverRead := by
  intro i s act lut hc h
  refine ⟨exec_context act lut hc h, fun hn => ?_⟩
  have hv : statusValid s.status = false := h.resolve_right (by simp [hn])
  exact ⟨_, exec_noConfig hn hv, raiseError_errReport .noConfig s⟩

/-- Settles O31: no unusable value derives a configuration, and CFG without one loses the old one and reports
BadConfig. -/
theorem cfgRefusesUnusableValues : Obligations.CfgRefusesUnusableValues := by
  intro s h
  have hd : deriveConfig s.cfgMinM s.cfgMaxM s.cfgScale (modeInverse s.cfgMode) = none := by
    rcases h with h | h | h | ⟨m, mx, sc, hm, hmx, hsc, h⟩
    · exact deriveConfig_of_not_finite _ (.inl h)
    · exact deriveConfig_of_not_finite _ (.inr (.inl h))
    · exact deriveConfig_of_not_finite _ (.inr (.inr h))
    · exact deriveConfig_of_unusable hm hmx hsc h
  exact ⟨_, exec_cfg_of_none hd, rfl, raiseError_badConfig_refuseReport rfl⟩

/-- Settles O8: a pending Reset is the next step, and every register of a state after Reset reads 0. -/
theorem resetClearsEveryRegister : Obligations.ResetClearsEveryRegister := by
  refine ⟨fun s rest h => ?_, readReg_resetOn _ _, rfl, rfl⟩
  exact ⟨_, step_of_host_cons h, readReg_resetEvent _, rfl, rfl, rfl⟩

end Sys2Proof.Machine
end

section
/-! The memory port (R62, R63): when an access is admitted or refused, and the value an admitted read gives. -/

namespace Sys2Proof.Machine

/-- One byte that is not admitted is enough to refuse the whole access. -/
theorem admitsAll_eq_false_iff (p : Platform) (k : AccessKind) (a n : Nat) :
    admitsAll p k a n = false ↔ ∃ x, a ≤ x ∧ x < a + n ∧ memAdmit p x k = false := by
  simp [← Bool.not_eq_true, admitsAll_iff]

theorem memRead_of_admitted {p : Platform} (m : Memory) {a n : Nat}
    (h : ∀ x, a ≤ x → x < a + n → memAdmit p x .read = true) : memRead p m a n = some (loadLE m a n) :=
  if_pos ((admitsAll_iff p .read a n).2 h)

theorem memRead_of_not_admitted {p : Platform} (m : Memory) {a n : Nat}
    (h : ∃ x, a ≤ x ∧ x < a + n ∧ memAdmit p x .read = false) : memRead p m a n = none := by
  simp [memRead, (admitsAll_eq_false_iff p .read a n).2 h]

theorem memWrite_of_admitted {p : Platform} (m : Memory) {a n : Nat} (v : Nat)
    (h : ∀ x, a ≤ x → x < a + n → memAdmit p x .write = true) : memWrite p m a n v = some (storeLE m a n v) :=
  if_pos ((admitsAll_iff p .write a n).2 h)

theorem memWrite_of_not_admitted {p : Platform} (m : Memory) {a n : Nat} (v : Nat)
    (h : ∃ x, a ≤ x ∧ x < a + n ∧ memAdmit p x .write = false) : memWrite p m a n v = none := by
  simp [memWrite, (admitsAll_eq_false_iff p .write a n).2 h]

/-- R62's sum, for an access of any size: splitting off the byte at `a` leaves 256 times the sum of the rest. -/
theorem loadLE_eq_sum (m : Memory) : ∀ (a n : Nat),
    loadLE m a n = ∑ i ∈ Finset.range n, (Memory.read m (a + i)).toNat * 256 ^ i
  | _, 0 => rfl
  | a, n + 1 => by
    have hrest : ∀ i, (Memory.read m (a + (i + 1))).toNat * 256 ^ (i + 1) =
        256 * ((Memory.read m (a + 1 + i)).toNat * 256 ^ i) := fun i => by
      rw [show a + (i + 1) = a + 1 + i by omega, pow_succ', Nat.mul_left_comm]
    rw [loadLE, loadLE_eq_sum m (a + 1) n, Finset.sum_range_succ', Finset.sum_congr rfl fun i _ => hrest i,
      ← Finset.mul_sum, Nat.add_comm]
    simp

/-! ### The statements -/

/-- Settles O45: an admitted read gives the loaded bytes, whose value is R62's sum, and one byte that is not admitted
refuses the access. -/
theorem memReadIsLittleEndian : Obligations.MemReadIsLittleEndian := by
  intro p m a n _ _
  refine ⟨fun h => ?_, memRead_of_not_admitted m⟩
  rw [memRead_of_admitted m h, loadLE_eq_sum]

/-- Settles O46: an admitted write is a store, which keeps the canonical form, puts its bytes and frames the others, and
one byte that is not admitted refuses the access. -/
theorem memWriteStoresItsBytes : Obligations.MemWriteStoresItsBytes := by
  intro p m a n v hm _ hle _
  refine ⟨fun h => ?_, memWrite_of_not_admitted m v⟩
  refine ⟨storeLE m a n v, memWrite_of_admitted m v h, wf_storeLE hm hle, fun i hi => ?_,
    fun x hx => read_storeLE_outside hm hle hx⟩
  rw [read_storeLE hm hle hi]
  exact BitVec.toNat_ofNat _ 8

end Sys2Proof.Machine
end

section
/-! The decoder in the numbers of R82: which format an opcode selects, what each format reads from the word and rejects,
and what a write of an illegal word to CMD does (R87, R185). -/

namespace Sys2Proof.Machine

open Sys2Proof.Laws

/-! ### The fields that select and reject -/

/-- R81: the opcode is the low byte of the word. -/
theorem fieldOp_eq_iff (w : Word) (op : Byte) : fieldOp w = op ↔ w.toNat % 256 = op.toNat := by
  rw [← BitVec.toNat_inj, fieldOp_toNat]

/-- R81: the must-be-zero field of format H is zero exactly in a word below 2^24. -/
theorem fieldB_eq_zero_iff (w : Word) : fieldB w = 0x00#8 ↔ w.toNat / 2 ^ 24 = 0 := by
  rw [← BitVec.toNat_inj, fieldB_toNat, BitVec.toNat_ofNat]
  omega

/-- R81: the must-be-zero field of format N is zero exactly in a word below 2^8. -/
theorem fieldPay_eq_zero_iff (w : Word) : fieldPay w = 0#24 ↔ w.toNat / 2 ^ 8 = 0 := by
  rw [← BitVec.toNat_inj, fieldPay_toNat, BitVec.toNat_ofNat]
  omega

/-! ### What each format reads and rejects -/

section Formats

variable {w : Word}

theorem decodeH_ok (mk : Sample → Instr) (hz : w.toNat / 2 ^ 24 = 0) :
    ∃ v, decodeH w mk = .ok (mk v) ∧ v.toNat = w.toNat / 2 ^ 8 % 2 ^ 16 :=
  ⟨_, if_pos ((fieldB_eq_zero_iff w).2 hz), fieldV16_toNat w⟩

theorem decodeH_reserved (mk : Sample → Instr) (hz : w.toNat / 2 ^ 24 ≠ 0) :
    decodeH w mk = .error (.reservedBitsSet (fieldOp w)) :=
  if_neg (mt (fieldB_eq_zero_iff w).1 hz)

theorem decodeT_ok (w : Word) (mk : Byte → Byte → Byte → Instr) :
    ∃ r g b, decodeT w mk = .ok (mk r g b) ∧ r.toNat = w.toNat / 2 ^ 8 % 2 ^ 8 ∧
      g.toNat = w.toNat / 2 ^ 16 % 2 ^ 8 ∧ b.toNat = w.toNat / 2 ^ 24 := by
  have hb : w.toNat / 16777216 % 256 = w.toNat / 2 ^ 24 := by omega
  exact ⟨_, _, _, rfl, fieldR_toNat w, fieldG_toNat w, (fieldB_toNat w).trans hb⟩

theorem decodeN_ok (i : Instr) (hz : w.toNat / 2 ^ 8 = 0) : decodeN w i = .ok i :=
  if_pos ((fieldPay_eq_zero_iff w).2 hz)

theorem decodeN_reserved (i : Instr) (hz : w.toNat / 2 ^ 8 ≠ 0) :
    decodeN w i = .error (.reservedBitsSet (fieldOp w)) :=
  if_neg (mt (fieldPay_eq_zero_iff w).1 hz)

/-! ### The format an opcode selects (R86) -/

theorem decode_venc (h : w.toNat % 256 = 0x01) : decode w = decodeH w .venc := by simp [decode, fieldOp_eq_iff, h]
theorem decode_vdec (h : w.toNat % 256 = 0x02) : decode w = decodeT w .vdec := by simp [decode, fieldOp_eq_iff, h]
theorem decode_cfg (h : w.toNat % 256 = 0x10) : decode w = decodeN w .cfg := by simp [decode, fieldOp_eq_iff, h]
theorem decode_sfwd (h : w.toNat % 256 = 0x11) : decode w = decodeH w .sfwd := by simp [decode, fieldOp_eq_iff, h]
theorem decode_sinv (h : w.toNat % 256 = 0x12) : decode w = decodeH w .sinv := by simp [decode, fieldOp_eq_iff, h]
theorem decode_penc (h : w.toNat % 256 = 0x20) : decode w = decodeH w .penc := by simp [decode, fieldOp_eq_iff, h]
theorem decode_pdec (h : w.toNat % 256 = 0x21) : decode w = decodeT w .pdec := by simp [decode, fieldOp_eq_iff, h]
theorem decode_ienc (h : w.toNat % 256 = 0x22) : decode w = decodeN w .ienc := by simp [decode, fieldOp_eq_iff, h]
theorem decode_idec (h : w.toNat % 256 = 0x23) : decode w = decodeN w .idec := by simp [decode, fieldOp_eq_iff, h]

theorem decode_unassigned (h : w.toNat % 256 ∉ [0x01, 0x02, 0x10, 0x11, 0x12, 0x20, 0x21, 0x22, 0x23]) :
    decode w = .error (.unassignedOpcode (fieldOp w)) := by
  simp only [List.mem_cons, List.not_mem_nil, or_false, not_or] at h
  simp [decode, fieldOp_eq_iff, h]

/-! ### Illegal words -/

theorem decode_formatN_reserved (hop : w.toNat % 256 ∈ [0x10, 0x22, 0x23]) (hz : w.toNat / 2 ^ 8 ≠ 0) :
    decode w = .error (.reservedBitsSet (fieldOp w)) := by
  simp only [List.mem_cons, List.not_mem_nil, or_false] at hop
  obtain h | h | h := hop
  · exact (decode_cfg h).trans (decodeN_reserved _ hz)
  · exact (decode_ienc h).trans (decodeN_reserved _ hz)
  · exact (decode_idec h).trans (decodeN_reserved _ hz)

theorem decode_formatH_reserved (hop : w.toNat % 256 ∈ [0x01, 0x11, 0x12, 0x20]) (hz : w.toNat / 2 ^ 24 ≠ 0) :
    decode w = .error (.reservedBitsSet (fieldOp w)) := by
  simp only [List.mem_cons, List.not_mem_nil, or_false] at hop
  obtain h | h | h | h := hop
  · exact (decode_venc h).trans (decodeH_reserved _ hz)
  · exact (decode_sfwd h).trans (decodeH_reserved _ hz)
  · exact (decode_sinv h).trans (decodeH_reserved _ hz)
  · exact (decode_penc h).trans (decodeH_reserved _ hz)

end Formats

/-- R82, R87 in numbers: an illegal word has an unassigned opcode, or an assigned one of format N or H and a non-zero
must-be-zero field; format T has no such field. -/
def IllegalWord (w : Word) : Prop :=
  w.toNat % 256 ∉ [0x01, 0x02, 0x10, 0x11, 0x12, 0x20, 0x21, 0x22, 0x23] ∨
    (w.toNat % 256 ∈ [0x10, 0x22, 0x23] ∧ w.toNat / 2 ^ 8 ≠ 0) ∨
    (w.toNat % 256 ∈ [0x01, 0x11, 0x12, 0x20] ∧ w.toNat / 2 ^ 24 ≠ 0)

/-- The decoder rejects an illegal word. -/
theorem IllegalWord.decode_error {w : Word} (h : IllegalWord w) : ∃ e, decode w = .error e := by
  obtain hop | ⟨hop, hz⟩ | ⟨hop, hz⟩ := h
  · exact ⟨_, decode_unassigned hop⟩
  · exact ⟨_, decode_formatN_reserved hop hz⟩
  · exact ⟨_, decode_formatH_reserved hop hz⟩

/-- R87, R185: a command write of an illegal word raises IllegalCommand and ends there. -/
theorem IllegalWord.commandWrite_eq {w : Word} (h : IllegalWord w) (s : State) :
    commandWrite w s = .next (raiseError .illegalCommand s) := by
  obtain ⟨e, he⟩ := h.decode_error
  simp only [commandWrite, he]

/-! ### The statements -/

/-- Settles O3: each opcode selects its format, whose fields are the numbers of R82, and an illegal word decodes to an
error, on which the command write raises IllegalCommand. -/
theorem decodingReadsTheFieldsOfTheWord : Obligations.DecodingReadsTheFieldsOfTheWord := by
  intro w
  refine ⟨fun h hz => ?venc, fun h => ?vdec, fun h hz => ?cfg, fun h hz => ?sfwd, fun h hz => ?sinv,
    fun h hz => ?penc, fun h => ?pdec, fun h hz => ?ienc, fun h hz => ?idec, fun h => ?illegal⟩
  case venc => exact decode_venc h ▸ decodeH_ok .venc hz
  case vdec => exact decode_vdec h ▸ decodeT_ok w .vdec
  case cfg => exact decode_cfg h ▸ decodeN_ok .cfg hz
  case sfwd => exact decode_sfwd h ▸ decodeH_ok .sfwd hz
  case sinv => exact decode_sinv h ▸ decodeH_ok .sinv hz
  case penc => exact decode_penc h ▸ decodeH_ok .penc hz
  case pdec => exact decode_pdec h ▸ decodeT_ok w .pdec
  case ienc => exact decode_ienc h ▸ decodeN_ok .ienc hz
  case idec => exact decode_idec h ▸ decodeN_ok .idec hz
  case illegal => exact ⟨IllegalWord.decode_error h, IllegalWord.commandWrite_eq h⟩

/-- Settles O5: the step is the command write of an illegal word, which is the error report and nothing else. -/
theorem illegalCommandOnlyReports : Obligations.IllegalCommandOnlyReports := by
  intro s w rest hhost hw
  have hstep : step s = .next (raiseError .illegalCommand { s with host := rest }) :=
    (step_of_host_write .cmd hhost).trans (IllegalWord.commandWrite_eq hw _)
  exact ⟨_, hstep, rfl, raiseError_errReport .illegalCommand { s with host := rest }⟩

end Sys2Proof.Machine
end

section
/-! The Value Codec (spec/40_value_codec.md): the channels of a code point as numbers (R100), the decoder branch by branch
(R101), the round trip (R105), and what VENC and VDEC leave in the state (R102 to R104). -/

namespace Sys2Proof.Machine

/-! ### The channels of a code point (R100) -/

theorem byte_toNat {n : Nat} (h : n ≤ 255) : (BitVec.ofNat 8 n).toNat = n := by
  rw [BitVec.toNat_ofNat]
  omega

section Channels

variable {v : Nat}

theorem vEnc_seg1_channels (h : 1 ≤ v) (h' : v ≤ 255) :
    (vEnc v).r.toNat = 255 ∧ (vEnc v).g.toNat = v - 1 ∧ (vEnc v).b.toNat = 0 := by
  rw [vEnc_seg1 h h']
  exact ⟨rfl, byte_toNat (by omega), rfl⟩

theorem vEnc_seg2_channels (h : 256 ≤ v) (h' : v ≤ 510) :
    (vEnc v).r.toNat = 511 - v ∧ (vEnc v).g.toNat = 255 ∧ (vEnc v).b.toNat = 0 := by
  rw [vEnc_seg2 h h']
  exact ⟨byte_toNat (by omega), rfl, rfl⟩

theorem vEnc_seg3_channels (h : 511 ≤ v) (h' : v ≤ 765) :
    (vEnc v).r.toNat = 0 ∧ (vEnc v).g.toNat = 255 ∧ (vEnc v).b.toNat = v - 511 := by
  rw [vEnc_seg3 h h']
  exact ⟨rfl, rfl, byte_toNat (by omega)⟩

theorem vEnc_seg4_channels (h : 766 ≤ v) (h' : v ≤ 1020) :
    (vEnc v).r.toNat = 0 ∧ (vEnc v).g.toNat = 1021 - v ∧ (vEnc v).b.toNat = 255 := by
  rw [vEnc_seg4 h h']
  exact ⟨rfl, byte_toNat (by omega), rfl⟩

theorem vEnc_seg5_channels (h : 1021 ≤ v) (h' : v ≤ 1275) :
    (vEnc v).r.toNat = v - 1021 ∧ (vEnc v).g.toNat = 0 ∧ (vEnc v).b.toNat = 255 := by
  rw [vEnc_seg5 h h']
  exact ⟨byte_toNat (by omega), rfl, rfl⟩

theorem vEnc_seg6_channels (h : 1276 ≤ v) (h' : v ≤ 1530) :
    (vEnc v).r.toNat = 255 ∧ (vEnc v).g.toNat = 0 ∧ (vEnc v).b.toNat = 1531 - v := by
  rw [vEnc_seg6 h h']
  exact ⟨rfl, rfl, byte_toNat (by omega)⟩

end Channels

/-! ### The decoder branch by branch (R101) -/

section Branches

variable (t : Triple)

theorem vDec_dark (h : t.r.toNat + t.g.toNat + t.b.toNat ≤ 128) : vDec t = 0 := by
  rw [vDec, vDecInt, if_pos (by exact_mod_cast h), Int.toNat_zero]

/-- In every branch past the sum test the formula is not negative, so `vDec` is its value. -/
theorem vDec_bright (h : 128 < t.r.toNat + t.g.toNat + t.b.toNat) :
    (vDec t : Int) =
      if t.g.toNat ≤ t.r.toNat ∧ t.b.toNat ≤ t.r.toNat then
        if t.b.toNat ≤ t.g.toNat then (t.g.toNat : Int) - t.b.toNat + 1 else (t.g.toNat : Int) - t.b.toNat + 1531
      else if t.b.toNat ≤ t.g.toNat then (t.b.toNat : Int) - t.r.toNat + 511
      else (t.r.toNat : Int) - t.g.toNat + 1021 := by
  have hr := t.r.isLt
  have hg := t.g.isLt
  have hb := t.b.isLt
  have hsum : ¬ (t.r.toNat : Int) + t.g.toNat + t.b.toNat ≤ (Config.darkSum : Int) := by
    unfold Config.darkSum
    omega
  rw [vDec, vDecInt, if_neg hsum]
  simp only [Nat.cast_le]
  split_ifs <;> omega

variable (h : 128 < t.r.toNat + t.g.toNat + t.b.toNat)
include h

theorem vDec_red_green (hg : t.g.toNat ≤ t.r.toNat) (hb : t.b.toNat ≤ t.r.toNat) (hbg : t.b.toNat ≤ t.g.toNat) :
    (vDec t : Int) = (t.g.toNat : Int) - t.b.toNat + 1 := by
  rw [vDec_bright t h, if_pos ⟨hg, hb⟩, if_pos hbg]

theorem vDec_red_blue (hg : t.g.toNat ≤ t.r.toNat) (hb : t.b.toNat ≤ t.r.toNat) (hgb : t.g.toNat < t.b.toNat) :
    (vDec t : Int) = (t.g.toNat : Int) - t.b.toNat + 1531 := by
  rw [vDec_bright t h, if_pos ⟨hg, hb⟩, if_neg (by omega)]

theorem vDec_green (hr : t.r.toNat < t.g.toNat) (hb : t.b.toNat ≤ t.g.toNat) :
    (vDec t : Int) = (t.b.toNat : Int) - t.r.toNat + 511 := by
  rw [vDec_bright t h, if_neg (by omega), if_pos hb]

theorem vDec_blue (hr : t.r.toNat < t.b.toNat) (hg : t.g.toNat < t.b.toNat) :
    (vDec t : Int) = (t.r.toNat : Int) - t.g.toNat + 1021 := by
  rw [vDec_bright t h, if_neg (by omega), if_neg (by omega)]

end Branches

/-! ### The round trip (R105) -/

/-- The levels cut where the segment of R100 or the branch of R101 changes: the decoder gives the ties 256 (yellow) and
766 (cyan) to the branch of the level before them. -/
theorem level_cases {v : Nat} (h : v ≤ 1530) :
    v = 0 ∨ (1 ≤ v ∧ v ≤ 255) ∨ v = 256 ∨ (257 ≤ v ∧ v ≤ 510) ∨ (511 ≤ v ∧ v ≤ 765) ∨ v = 766 ∨
      (767 ≤ v ∧ v ≤ 1020) ∨ (1021 ≤ v ∧ v ≤ 1275) ∨ (1276 ≤ v ∧ v ≤ 1530) := by
  omega

/-- R105: decoding an encoded level gives it back. -/
theorem vDec_vEnc {v : Nat} (h : v ≤ 1530) : vDec (vEnc v) = v := by
  obtain rfl | ⟨h1, h2⟩ | rfl | ⟨h1, h2⟩ | ⟨h1, h2⟩ | rfl | ⟨h1, h2⟩ | ⟨h1, h2⟩ | ⟨h1, h2⟩ := level_cases h
  · rfl
  · obtain ⟨hr, hg, hb⟩ := vEnc_seg1_channels h1 h2
    have := vDec_red_green (vEnc v) (by omega) (by omega) (by omega) (by omega)
    omega
  · rfl
  · obtain ⟨hr, hg, hb⟩ := vEnc_seg2_channels (by omega) h2
    have := vDec_green (vEnc v) (by omega) (by omega) (by omega)
    omega
  · obtain ⟨hr, hg, hb⟩ := vEnc_seg3_channels h1 h2
    have := vDec_green (vEnc v) (by omega) (by omega) (by omega)
    omega
  · rfl
  · obtain ⟨hr, hg, hb⟩ := vEnc_seg4_channels (by omega) h2
    have := vDec_blue (vEnc v) (by omega) (by omega) (by omega)
    omega
  · obtain ⟨hr, hg, hb⟩ := vEnc_seg5_channels h1 h2
    have := vDec_blue (vEnc v) (by omega) (by omega) (by omega)
    omega
  · obtain ⟨hr, hg, hb⟩ := vEnc_seg6_channels h1 h2
    have := vDec_red_blue (vEnc v) (by omega) (by omega) (by omega) (by omega)
    omega

/-- R105: above 1530 the code point is that of level 1. -/
theorem vDec_vEnc_above {v : Nat} (h : 1530 < v) : vDec (vEnc v) = 1 := by
  rw [vEnc_above h]
  rfl

/-! ### What VENC and VDEC do (R102 to R104) -/

/-- The success report in the terms of Safety (R191). -/
theorem reportOk_okReport (s : State) : OkReport s.status (reportOk s).status :=
  ⟨reportOk_last s, fun i hi hout => setLast_getLsbD s.status 0 i hi hout⟩

/-- R102, R103: VENC completes, writes the triple of its level to RESULT and a report to STATUS, and nothing else. -/
theorem exec_venc (v : Sample) (s : State) :
    ∃ t, exec (.venc v) s = .next t ∧ t = { s with result := t.result, status := t.status } ∧
      t.result = tripleWord (vEnc v.toNat) ∧
      (v.toNat ≤ 1530 → OkReport s.status t.status) ∧ (1530 < v.toNat → ErrReport 2 s.status t.status) := by
  by_cases hv : 1530 < v.toNat
  · exact ⟨_, if_pos hv, rfl, rfl, fun h => absurd h (by omega), fun _ => raiseError_errReport .outOfRangeLevel _⟩
  · exact ⟨_, if_neg hv, rfl, rfl, fun _ => reportOk_okReport _, fun h => absurd h hv⟩

/-- R104: VDEC is the success report on the state with the level in RESULT. -/
theorem exec_vdec (r g b : Byte) (s : State) :
    exec (.vdec r g b) s = .next (reportOk (setResult (levelWord (vDec ⟨r, g, b⟩)) s)) := rfl

/-! ### The statements -/

/-- Settles O22: RESULT is the sum of the channels R100 gives for the level, R lowest. -/
theorem vencFollowsTheSegmentTable : Obligations.VencFollowsTheSegmentTable := by
  intro v s
  obtain ⟨t, hexec, hframe, hres, hok, herr⟩ := exec_venc v s
  have hsum := tripleWord_toNat (vEnc v.toNat)
  rw [← hres] at hsum
  refine ⟨t, hexec, hframe, hok, herr, fun h => ?black, fun h h' => ?seg1, fun h h' => ?seg2, fun h h' => ?seg3,
    fun h h' => ?seg4, fun h h' => ?seg5, fun h h' => ?seg6, fun h => ?above⟩
  case black => rw [hres, h]; rfl
  case seg1 => have := vEnc_seg1_channels h h'; omega
  case seg2 => have := vEnc_seg2_channels h h'; omega
  case seg3 => have := vEnc_seg3_channels h h'; omega
  case seg4 => have := vEnc_seg4_channels h h'; omega
  case seg5 => have := vEnc_seg5_channels h h'; omega
  case seg6 => have := vEnc_seg6_channels h h'; omega
  case above => rw [hres, vEnc_above h]; rfl

/-- Settles O23: RESULT holds the decoded level, which each branch of R101 gives by its formula. -/
theorem vdecFollowsTheDominantChannel : Obligations.VdecFollowsTheDominantChannel := by
  intro r g b s
  have hres : (levelWord (vDec ⟨r, g, b⟩)).toNat = vDec ⟨r, g, b⟩ := levelWord_toNat (vDec_le _)
  refine ⟨_, exec_vdec r g b s, rfl, reportOk_okReport _, ?_⟩
  rw [reportOk_result, setResult_result, hres]
  let t : Triple := ⟨r, g, b⟩
  exact ⟨vDec_dark t, fun h => ⟨vDec_red_green t h, vDec_red_blue t h, vDec_green t h, vDec_blue t h⟩⟩

/-- Settles O24: the decoder is a left inverse of the encoder on the levels, so the encoder is injective there. -/
theorem everyLevelRoundTrips : Obligations.EveryLevelRoundTrips := by
  refine ⟨fun v => vDec_vEnc, fun v w hv hw h => ?_, fun v => vDec_vEnc_above⟩
  calc v = vDec (vEnc v) := (vDec_vEnc hv).symm
    _ = vDec (vEnc w) := congrArg vDec h
    _ = w := vDec_vEnc hw

/-- Settles O27: the decoded level is at most 1530, and on a code point the round trip of R105 applies. -/
theorem onlyCodePointsReencodeToThemselves : Obligations.OnlyCodePointsReencodeToThemselves := by
  intro t
  constructor
  · intro h
    exact ⟨vDec t, vDec_le t, h⟩
  · rintro ⟨v, hv, rfl⟩
    rw [vDec_vEnc hv]

end Sys2Proof.Machine
end

section
/-! The numerics of the Range Scaler (spec/41_range_scaler.md, section 1): the fields of a binary32 pattern as numbers and
its value (R121), and `round` on either side of zero (R124). -/

namespace Sys2Proof.Machine

/-! ### Binary32 (R121) -/

section Binary32

variable (p : Word)

theorem f32Exp_eq : f32Exp p = p.toNat / 2 ^ 23 % 256 := by
  rw [f32Exp, BitVec.extractLsb'_toNat, Nat.shiftRight_eq_div_pow]

theorem f32Frac_eq : f32Frac p = p.toNat % 2 ^ 23 := by
  rw [f32Frac, BitVec.extractLsb'_toNat, Nat.shiftRight_zero]

/-- The sign bit is the top bit of the number, so it is the exponent of -1. -/
theorem f32Signed_cast (n : Nat) : (f32Signed p n : Rat) = (-1) ^ (p.toNat / 2 ^ 31) * (n : Rat) := by
  have hsign : p.getLsbD 31 = decide (p.toNat / 2 ^ 31 % 2 = 1) := by
    rw [BitVec.getLsbD, Nat.testBit_eq_decide_div_mod_eq]
  have htop : p.toNat / 2 ^ 31 = 0 ∨ p.toNat / 2 ^ 31 = 1 := by
    have := p.isLt
    omega
  obtain h | h := htop <;> rw [f32Signed, hsign, h] <;> simp

variable {p}

theorem f32val_nan (he : f32Exp p = 255) (hm : f32Frac p ≠ 0) : f32val p = .nan := if_pos ⟨he, hm⟩

theorem f32val_inf (he : f32Exp p = 255) (hm : f32Frac p = 0) : f32val p = .inf := by
  rw [f32val, if_neg (fun h => h.2 hm), if_pos he]

theorem f32val_subnormal (he : f32Exp p = 0) :
    f32val p = .finite ((-1) ^ (p.toNat / 2 ^ 31) * (f32Frac p : Rat) * (2 : Rat) ^ (-149 : Int)) := by
  rw [f32val, if_neg (by omega), if_neg (by omega), if_pos he, Rat.mkRat_eq_div, f32Signed_cast, zpow_neg, div_eq_mul_inv]
  norm_cast

theorem f32val_normal (he : f32Exp p ≠ 0) (he' : f32Exp p ≠ 255) :
    f32val p = .finite ((-1) ^ (p.toNat / 2 ^ 31) * ((2 ^ 23 + f32Frac p : Nat) : Rat) *
      (2 : Rat) ^ ((f32Exp p : Int) - 150)) := by
  rw [f32val, if_neg (fun h => he' h.1), if_neg he', if_neg he, Rat.mkRat_eq_div, f32Signed_cast,
    zpow_sub₀ two_ne_zero, zpow_natCast, Nat.cast_mul, ← mul_assoc, mul_div_assoc]
  norm_cast

end Binary32

/-! ### Rounding (R124) -/

/-- On a negative rational `round` is the floor mirrored at zero. -/
theorem roundAway_of_neg {q : Rat} (h : q < 0) : roundAway q = -⌊-q + 1 / 2⌋ := by
  have half : mkRat 1 2 = 1 / 2 := by norm_num [Rat.mkRat_eq_div]
  rw [roundAway, if_neg (not_le.2 h), half]
  rfl

/-- `round` is odd. -/
theorem roundAway_neg (q : Rat) : roundAway (-q) = -roundAway q := by
  obtain h | rfl | h := lt_trichotomy q 0
  · rw [roundAway_of_neg h, roundAway_of_nonneg (by linarith), neg_neg]
  · norm_num [roundAway_of_nonneg]
  · rw [roundAway_of_neg (by linarith), roundAway_of_nonneg h.le, neg_neg]

/-- A non-negative rational is within 1/2 of its rounding. -/
theorem roundAway_near_of_nonneg {q : Rat} (h : 0 ≤ q) :
    q - 1 / 2 ≤ (roundAway q : Rat) ∧ (roundAway q : Rat) ≤ q + 1 / 2 := by
  obtain ⟨n, e, hlo, hhi⟩ := roundAway_isRounded h
  rw [e, Int.cast_natCast]
  constructor <;> linarith

/-- Every rational is within 1/2 of its rounding. -/
theorem roundAway_near (q : Rat) : q - 1 / 2 ≤ (roundAway q : Rat) ∧ (roundAway q : Rat) ≤ q + 1 / 2 := by
  obtain h | h := le_total 0 q
  · exact roundAway_near_of_nonneg h
  · obtain ⟨hlo, hhi⟩ := roundAway_near_of_nonneg (neg_nonneg.2 h)
    rw [roundAway_neg, Int.cast_neg] at hlo hhi
    constructor <;> linarith

/-- A tie above zero rounds up. -/
theorem roundAway_tie {n : Int} (h : 0 ≤ n) : roundAway ((n : Rat) + 1 / 2) = n + 1 := by
  have hn : (0 : Rat) ≤ n := by exact_mod_cast h
  have hsum : (n : Rat) + 1 / 2 + 1 / 2 = ((n + 1 : Int) : Rat) := by push_cast; ring
  rw [roundAway_of_nonneg (by linarith), hsum, Int.floor_intCast]

/-- `round` keeps the order of non-negative rationals. -/
theorem roundAway_mono {q r : Rat} (hq : 0 ≤ q) (h : q ≤ r) : roundAway q ≤ roundAway r := by
  rw [roundAway_of_nonneg hq, roundAway_of_nonneg (hq.trans h)]
  exact Int.floor_le_floor (by linarith)

/-! ### The statements -/

/-- Settles O28: the model's exponent and fraction are the fields of R121, and each class of the exponent is an arm of
`f32val`. -/
theorem binary32PatternsHaveTheirValue : Obligations.Binary32PatternsHaveTheirValue := by
  intro p
  rw [← f32Exp_eq, ← f32Frac_eq]
  exact ⟨f32val_nan, f32val_inf, f32val_subnormal, fun h1 h2 => f32val_normal (by omega) (by omega)⟩

/-- Settles O29: the nearest integer on both sides of zero, and a tie below zero is the mirror image of one above. -/
theorem roundingIsToNearestTiesAway : Obligations.RoundingIsToNearestTiesAway := by
  intro q
  obtain ⟨hlo, hhi⟩ := roundAway_near q
  refine ⟨hlo, hhi, fun n hn hq => ?above, fun n hn hq => ?below⟩
  case above => rw [hq, roundAway_tie hn]
  case below =>
    have hmirror : q = -(((-n : Int) : Rat) + 1 / 2) := by rw [hq]; push_cast; ring
    rw [hmirror, roundAway_neg, roundAway_tie (by omega)]
    ring

end Sys2Proof.Machine
end

section
/-! CFG on admissible values (spec/41_range_scaler.md, section 2): the configuration each mode derives (R129 to R131) and
what the commit leaves (R132). -/

namespace Sys2Proof.Machine

/-! ### The derived configuration -/

/-- R131: two different bounds have a configuration, with their difference as its range. -/
theorem actOfBounds_of_ne {minU maxU : Rat} (inv : Bool) (h : minU ≠ maxU) :
    actOfBounds minU maxU inv = some ⟨minU, maxU, maxU - minU, inv⟩ :=
  if_neg (sub_ne_zero.2 h.symm)

section Admissible

variable {pMin pMax pScale : Word} {m mx sc : Rat} (hm : f32val pMin = .finite m) (hmx : f32val pMax = .finite mx)
  (hsc : f32val pScale = .finite sc) (hs : 0 < sc)

include hm hmx hsc hs

/-- R129: linear mode commits the two quotients. -/
theorem deriveConfig_linear_some (hm0 : 0 ≤ m) (hmx0 : 0 ≤ mx) (hne : m ≠ mx) :
    deriveConfig pMin pMax pScale false = some (⟨m / sc, mx / sc, mx / sc - m / sc, false⟩, false) := by
  have hb : m / sc ≠ mx / sc := (div_left_inj' hs.ne').not.2 hne
  rw [deriveConfig_linear hm hmx hsc (by simp [hs, hm0, hmx0]), actOfBounds_of_ne false hb, Option.map_some]

/-- R130: inverse mode with a positive maximum commits the reciprocals of the guarded minimum and of the maximum. -/
theorem deriveConfig_inverse_some (hm0 : 0 ≤ m) (hmx0 : 0 < mx) (hne : epsGuard (m / sc) ≠ mx / sc) :
    deriveConfig pMin pMax pScale true =
      some (⟨1 / epsGuard (m / sc), sc / mx, sc / mx - 1 / epsGuard (m / sc), true⟩, decide (m / sc = 0)) := by
  have hb : 1 / epsGuard (m / sc) ≠ 1 / (mx / sc) := by simpa only [one_div, ne_eq, inv_inj] using hne
  rw [deriveConfig_inverse hm hmx hsc (by simp [hs, hm0, hmx0.le]), if_neg (div_pos hmx0 hs).ne',
    actOfBounds_of_ne true hb, Option.map_some, one_div_div]

/-- R130: with a positive minimum nothing is substituted. -/
theorem deriveConfig_inverse_pos (hm0 : 0 < m) (hmx0 : 0 < mx) (hne : m ≠ mx) :
    deriveConfig pMin pMax pScale true = some (⟨sc / m, sc / mx, sc / mx - sc / m, true⟩, false) := by
  have hq : m / sc ≠ 0 := (div_pos hm0 hs).ne'
  have hguard : epsGuard (m / sc) = m / sc := if_neg hq
  have hb : m / sc ≠ mx / sc := (div_left_inj' hs.ne').not.2 hne
  rw [deriveConfig_inverse_some hm hmx hsc hs hm0.le hmx0 (by rwa [hguard]), hguard, one_div_div, decide_eq_false hq]

/-- R129: a zero minimum is replaced by EPS, whose reciprocal is 10^9. -/
theorem deriveConfig_inverse_zero (hm0 : m = 0) (hmx0 : 0 < mx) (hne : mx / sc ≠ 1 / 10 ^ 9) :
    deriveConfig pMin pMax pScale true = some (⟨10 ^ 9, sc / mx, sc / mx - 10 ^ 9, true⟩, true) := by
  have hq : m / sc = 0 := by rw [hm0, zero_div]
  have hguard : epsGuard (m / sc) = 1 / 10 ^ 9 := (if_pos hq).trans eps_eq
  rw [deriveConfig_inverse_some hm hmx hsc hs hm0.ge hmx0 (hguard ▸ hne.symm), hguard, one_div_one_div, decide_eq_true hq]

end Admissible

/-! ### The commit (R132) -/

/-- R39, R132: the table of CFG in the terms of Safety. -/
theorem tableBuilt_buildLut : TableBuilt (some buildLut) := by
  refine ⟨buildLut, rfl, length_buildLut, fun v hv => ?_⟩
  have hlt : v < Config.lutSize := Nat.lt_succ_of_le hv
  simp [buildLut, hlt]

/-- R132: setting VALID, writing EPS_SUB and reporting success, in the terms of Safety. -/
theorem reportOk_commitReport {s t : State} {eps : Bool} (ht : t.status = setEpsSub (setValid s.status true) eps) :
    CommitReport eps s.status (reportOk t).status := by
  have hbit {i : Nat} (hi : i < 32) (hout : i < 16 ∨ 20 ≤ i) :
      (reportOk t).status.getLsbD i = (setEpsSub (setValid s.status true) eps).getLsbD i :=
    ht ▸ setLast_getLsbD t.status 0 i hi hout
  refine ⟨?_, ?_, reportOk_last t, fun i hi h2 hout => ?_⟩
  · rw [hbit (by omega) (by omega), ← statusValid, statusValid_setEpsSub, statusValid_setValid]
  · rw [hbit (by omega) (by omega), ← statusEpsSub, statusEpsSub_setEpsSub]
  · rw [hbit hi hout, setEpsSub_setValid_getLsbD _ _ _ h2 hi]

/-- R127, R132: a CFG with a derived configuration commits it with the table, and changes nothing else but STATUS. -/
theorem exec_cfg_commits {s : State} {act : Act} {eps : Bool}
    (h : deriveConfig s.cfgMinM s.cfgMaxM s.cfgScale (modeInverse s.cfgMode) = some (act, eps)) :
    ∃ t, exec .cfg s = .next t ∧ t = { s with act := t.act, lut := t.lut, status := t.status } ∧
      t.act = some act ∧ TableBuilt t.lut ∧ CommitReport eps s.status t.status := by
  have hexec : exec .cfg s = .next (reportOk
      { s with act := some act, lut := some buildLut, status := setEpsSub (setValid s.status true) eps }) := by
    simp only [exec, execCfg, h]
  exact ⟨_, hexec, rfl, rfl, tableBuilt_buildLut, reportOk_commitReport rfl⟩

/-! ### The statement -/

/-- Settles O30: each mode derives its configuration from admissible values, and CFG commits what it derives. -/
theorem cfgCommitsTheDerivedBounds : Obligations.CfgCommitsTheDerivedBounds := by
  intro s m mx sc hm hmx hsc hs hm0 hmx0
  refine ⟨fun hmode hne => exec_cfg_commits ?linear, fun hmode hmpos hmxpos hne => exec_cfg_commits ?inverse,
    fun hmode hmzero hmxpos hne => exec_cfg_commits ?inverseZero⟩ <;> rw [modeInverse, hmode]
  case linear => exact deriveConfig_linear_some hm hmx hsc hs hm0 hmx0 hne
  case inverse => exact deriveConfig_inverse_pos hm hmx hsc hs hmpos hmxpos hne
  case inverseZero => exact deriveConfig_inverse_zero hm hmx hsc hs hmzero hmxpos hne

end Sys2Proof.Machine
end

section
/-! The two maps of the Range Scaler (spec/41_range_scaler.md, sections 3 to 5): the level of a sample and the sample of a
level as roundings (R134, R136), SFWD and SINV on a valid configuration (R135, R137), saturation and monotonicity (R138),
and well-definedness (R140). -/

namespace Sys2Proof.Machine

/-! ### The forward map (R134, R138) -/

/-- The sample in the domain of the bounds: d' of R134. -/
def sampleCoord (act : Act) (d : Sample) : Rat := if act.inverse then 1 / (d.toNat : Rat) else (d.toNat : Rat)

/-- Where a sample lies between the bounds, not yet clamped: scaled of R134. -/
def samplePosition (act : Act) (d : Sample) : Rat := (sampleCoord act d - act.minU) / act.rangeU

theorem levelMax_cast : ((Config.levelMax : Nat) : Rat) = 1530 := by norm_num [Config.levelMax]

theorem clamp01_of_nonpos {q : Rat} (h : q ≤ 0) : clamp01 q = 0 := by
  rw [clamp01, max_eq_right h, min_eq_left zero_le_one]

theorem clamp01_of_one_le {q : Rat} (h : 1 ≤ q) : clamp01 q = 1 := min_eq_right (h.trans (le_max_left q 0))

theorem clamp01_mono {q r : Rat} (h : q ≤ r) : clamp01 q ≤ clamp01 r := min_le_min_right 1 (max_le_max_right 0 h)

/-- R140 (c): the argument of the forward rounding is in [0, 1530]. -/
theorem scaled_range (q : Rat) : 0 ≤ 1530 * clamp01 q ∧ 1530 * clamp01 q ≤ 1530 := by
  have h0 := clamp01_nonneg q
  have h1 := clamp01_le_one q
  constructor <;> linarith

theorem scaleFwd_of_zero {act : Act} {d : Sample} (h : d.toNat = 0) : scaleFwd act d = 0 := if_pos h

theorem scaleFwd_of_ne_zero {act : Act} {d : Sample} (h : d.toNat ≠ 0) :
    scaleFwd act d = (roundAway (1530 * clamp01 (samplePosition act d))).toNat := by
  rw [← levelMax_cast]
  exact if_neg h

/-- R134: the level of a valid sample is 1530 times its clamped position, rounded. -/
theorem scaleFwd_isRounded {act : Act} {d : Sample} (h : d.toNat ≠ 0) :
    IsRounded (1530 * clamp01 (samplePosition act d)) (scaleFwd act d) := by
  obtain ⟨n, e, hn⟩ := roundAway_isRounded (scaled_range (samplePosition act d)).1
  rwa [scaleFwd_of_ne_zero h, e, Int.toNat_natCast]

/-- R134 in the terms of Safety. -/
theorem scaleFwd_forwardLevel (act : Act) (d : Sample) : ForwardLevel act d (scaleFwd act d) :=
  ⟨scaleFwd_of_zero, scaleFwd_isRounded⟩

section Position

variable {act : Act} {d e : Sample}

theorem scaleFwd_of_position_nonpos (h : samplePosition act d ≤ 0) : scaleFwd act d = 0 := by
  by_cases hd : d.toNat = 0
  · exact scaleFwd_of_zero hd
  · refine (scaleFwd_isRounded hd).unique ?_
    rw [clamp01_of_nonpos h]
    constructor <;> norm_num

theorem scaleFwd_of_one_le_position (hd : d.toNat ≠ 0) (h : 1 ≤ samplePosition act d) : scaleFwd act d = 1530 := by
  refine (scaleFwd_isRounded hd).unique ?_
  rw [clamp01_of_one_le h]
  constructor <;> norm_num

/-- A sample that is no deeper and no further along the range has no higher level; the invalid sample has level 0. -/
theorem scaleFwd_mono (hde : d.toNat ≤ e.toNat) (h : samplePosition act d ≤ samplePosition act e) :
    scaleFwd act d ≤ scaleFwd act e := by
  by_cases hd : d.toNat = 0
  · exact (scaleFwd_of_zero hd).trans_le (Nat.zero_le _)
  · rw [scaleFwd_of_ne_zero hd, scaleFwd_of_ne_zero (by omega)]
    have harg := mul_le_mul_of_nonneg_left (clamp01_mono h) (by norm_num : (0 : Rat) ≤ 1530)
    exact Int.toNat_le_toNat (roundAway_mono (scaled_range _).1 harg)

end Position

/-! ### Positions on a rising and on a falling range

The sign of the range decides the orientation (R131, R138). A range rises in linear mode with lo < hi and in inverse mode
with hi < lo; it falls in the two other cases. -/

section Orientation

variable {act : Act} {d e : Sample} (hr : act.rangeU = act.maxU - act.minU)

include hr

section Rising

variable (hlt : act.minU < act.maxU)

include hlt

theorem position_nonpos_of_rising (h : sampleCoord act d ≤ act.minU) : samplePosition act d ≤ 0 :=
  div_nonpos_of_nonpos_of_nonneg (sub_nonpos.2 h) (hr ▸ (sub_pos.2 hlt).le)

theorem one_le_position_of_rising (h : act.maxU ≤ sampleCoord act d) : 1 ≤ samplePosition act d := by
  rw [samplePosition, hr, one_le_div (sub_pos.2 hlt)]
  exact sub_le_sub_right h _

theorem position_mono_of_rising (h : sampleCoord act d ≤ sampleCoord act e) :
    samplePosition act d ≤ samplePosition act e := by
  rw [samplePosition, samplePosition, hr, div_le_div_iff_of_pos_right (sub_pos.2 hlt)]
  exact sub_le_sub_right h _

end Rising

section Falling

variable (hlt : act.maxU < act.minU)

include hlt

theorem position_nonpos_of_falling (h : act.minU ≤ sampleCoord act d) : samplePosition act d ≤ 0 :=
  div_nonpos_of_nonneg_of_nonpos (sub_nonneg.2 h) (hr ▸ (sub_neg.2 hlt).le)

theorem one_le_position_of_falling (h : sampleCoord act d ≤ act.maxU) : 1 ≤ samplePosition act d := by
  rw [samplePosition, hr, one_le_div_of_neg (sub_neg.2 hlt)]
  exact sub_le_sub_right h _

theorem position_anti_of_falling (h : sampleCoord act e ≤ sampleCoord act d) :
    samplePosition act d ≤ samplePosition act e := by
  rw [samplePosition, samplePosition, hr, div_le_div_right_of_neg (sub_neg.2 hlt)]
  exact sub_le_sub_right h _

end Falling

end Orientation

/-! ### Saturation in the two modes (R138) -/

/-- R138 for a configuration whose bounds before any inversion are `lo` and `hi`. -/
def ForwardOrientation (lo hi : Rat) (act : Act) : Prop :=
  (lo < hi →
    (∀ d : Sample, 1 ≤ d.toNat → (d.toNat : Rat) ≤ lo → scaleFwd act d = 0) ∧
    (∀ d : Sample, hi ≤ (d.toNat : Rat) → scaleFwd act d = 1530) ∧
    (∀ d e : Sample, lo ≤ (d.toNat : Rat) → d.toNat ≤ e.toNat → (e.toNat : Rat) ≤ hi →
      scaleFwd act d ≤ scaleFwd act e)) ∧
  (hi < lo →
    (∀ d : Sample, lo ≤ (d.toNat : Rat) → scaleFwd act d = 0) ∧
    (∀ d : Sample, 1 ≤ d.toNat → (d.toNat : Rat) ≤ hi → scaleFwd act d = 1530))

theorem sample_pos_of_le {d : Sample} {q : Rat} (hq : 0 < q) (h : q ≤ (d.toNat : Rat)) : 0 < d.toNat := by
  exact_mod_cast hq.trans_le h

/-- In linear mode the coordinate is the depth, and the range rises exactly with lo < hi. -/
theorem forwardOrientation_linear {lo hi : Rat} (hlo : 0 ≤ lo) :
    ForwardOrientation lo hi ⟨lo, hi, hi - lo, false⟩ := by
  refine ⟨fun hlt => ?rising, fun hlt => ?falling⟩
  case rising =>
    refine ⟨fun d _ h => ?_, fun d h => ?_, fun d e _ hde _ => ?_⟩
    · exact scaleFwd_of_position_nonpos (position_nonpos_of_rising rfl hlt h)
    · have hd := sample_pos_of_le (hlo.trans_lt hlt) h
      exact scaleFwd_of_one_le_position hd.ne' (one_le_position_of_rising rfl hlt h)
    · exact scaleFwd_mono hde (position_mono_of_rising rfl hlt (Nat.cast_le.2 hde))
  case falling =>
    refine ⟨fun d h => ?_, fun d h1 h => ?_⟩
    · exact scaleFwd_of_position_nonpos (position_nonpos_of_falling rfl hlt h)
    · exact scaleFwd_of_one_le_position (by omega) (one_le_position_of_falling rfl hlt h)

/-- In inverse mode the coordinate is the disparity, which decreases with depth: the range falls exactly with lo < hi. -/
theorem forwardOrientation_inverse {lo hi : Rat} (hlo : 0 < lo) (hhi : 0 < hi) :
    ForwardOrientation lo hi ⟨1 / lo, 1 / hi, 1 / hi - 1 / lo, true⟩ := by
  have hcast {d : Sample} (h : 0 < d.toNat) : (0 : Rat) < d.toNat := Nat.cast_pos.2 h
  refine ⟨fun hlt => ?falling, fun hlt => ?rising⟩
  case falling =>
    have hfall := one_div_lt_one_div_of_lt hlo hlt
    refine ⟨fun d h1 h => ?_, fun d h => ?_, fun d e hd hde _ => ?_⟩
    · have hdisp := one_div_le_one_div_of_le (hcast h1) h
      exact scaleFwd_of_position_nonpos (position_nonpos_of_falling rfl hfall hdisp)
    · have hdisp := one_div_le_one_div_of_le hhi h
      exact scaleFwd_of_one_le_position (sample_pos_of_le hhi h).ne' (one_le_position_of_falling rfl hfall hdisp)
    · have hdisp := one_div_le_one_div_of_le (hcast (sample_pos_of_le hlo hd)) (Nat.cast_le.2 hde)
      exact scaleFwd_mono hde (position_anti_of_falling rfl hfall hdisp)
  case rising =>
    have hrise := one_div_lt_one_div_of_lt hhi hlt
    refine ⟨fun d h => ?_, fun d h1 h => ?_⟩
    · have hdisp := one_div_le_one_div_of_le hlo h
      exact scaleFwd_of_position_nonpos (position_nonpos_of_rising rfl hrise hdisp)
    · have hdisp := one_div_le_one_div_of_le (hcast h1) h
      exact scaleFwd_of_one_le_position (by omega) (one_le_position_of_rising rfl hrise hdisp)

/-! ### The inverse map (R136, R140) -/

theorem levelDepth_eq (act : Act) (l : Nat) : levelDepth act l = act.minU + act.rangeU * (l : Rat) / 1530 := by
  rw [levelDepth, levelMax_cast]

theorem depthOfLevel_eq (act : Act) (l : Nat) :
    depthOfLevel act l = if act.inverse then 1 / levelDepth act l else levelDepth act l := by
  rw [levelDepth_eq, depthOfLevel]

theorem scaleInv_of_invalid (act : Act) {l : Nat} (h : l = 0 ∨ 1530 < l) : scaleInv act l = 0#16 := if_pos h

theorem scaleInv_of_valid (act : Act) {l : Nat} (h1 : 1 ≤ l) (h2 : l ≤ 1530) :
    scaleInv act l = sat16 (roundAway (depthOfLevel act l)) := by
  rw [depthOfLevel_eq]
  exact if_neg (by unfold Config.levelMax; omega)

/-- R9: saturation of a natural number. -/
theorem sat16_natCast_toNat (n : Nat) : (sat16 n).toNat = min n 65535 := by
  by_cases h : 65535 < n
  · rw [sat16, if_neg (by omega), if_pos (by omega), min_eq_right h.le]
    rfl
  · rw [sat16, if_neg (by omega), if_neg (by omega), Int.toNat_natCast, BitVec.toNat_ofNat]
    omega

section Sound

variable {act : Act} (hA : act.Sound) {l : Nat}

include hA

/-- R140 (b): the depth of a level is a convex combination of the two bounds. -/
theorem levelDepth_convex :
    levelDepth act l = act.minU * (1 - (l : Rat) / 1530) + act.maxU * ((l : Rat) / 1530) := by
  rw [levelDepth_eq, hA.range_eq]
  ring

variable (h2 : l ≤ 1530)

include h2

/-- The share of the minimum in that combination. -/
theorem minU_share_nonneg : 0 ≤ act.minU * (1 - (l : Rat) / 1530) := by
  have hl : (l : Rat) ≤ 1530 := by exact_mod_cast h2
  exact mul_nonneg hA.min_nonneg (by linarith)

theorem levelDepth_nonneg : 0 ≤ levelDepth act l := by
  have hmin := minU_share_nonneg hA h2
  have hmax := mul_nonneg hA.max_nonneg (by positivity : 0 ≤ (l : Rat) / 1530)
  rw [levelDepth_convex hA]
  linarith

/-- Level 0 aside, the maximum has a positive weight. -/
theorem levelDepth_pos (h1 : 1 ≤ l) (hinv : act.inverse = true) : 0 < levelDepth act l := by
  have hl : (0 : Rat) < l := Nat.cast_pos.2 h1
  have hmin := minU_share_nonneg hA h2
  have hmax := mul_pos (hA.max_pos hinv) (by positivity : 0 < (l : Rat) / 1530)
  rw [levelDepth_convex hA]
  linarith

/-- R140 (c): the argument of the inverse rounding is not negative. -/
theorem depthOfLevel_nonneg : 0 ≤ depthOfLevel act l := by
  have h := levelDepth_nonneg hA h2
  rw [depthOfLevel_eq]
  split
  · exact one_div_nonneg.2 h
  · exact h

end Sound

/-- R136 in the terms of Safety. -/
theorem scaleInv_inverseSample {act : Act} (hA : act.Sound) (l : Nat) : InverseSample act l (scaleInv act l) := by
  refine ⟨fun h => ?invalid, fun h1 h2 => ?valid⟩
  case invalid => rw [scaleInv_of_invalid act h]; rfl
  case valid =>
    obtain ⟨n, e, hn⟩ := roundAway_isRounded (depthOfLevel_nonneg hA h2)
    exact ⟨n, hn, by rw [scaleInv_of_valid act h1 h2, e, sat16_natCast_toNat]⟩

/-! ### SFWD and SINV on a valid configuration (R135, R137) -/

theorem exec_sfwd_valid {s : State} {act : Act} (d : Sample) (hv : s.status.getLsbD 0 = true) (ha : s.act = some act) :
    exec (.sfwd d) s = .next (reportOk (setResult (levelWord (scaleFwd act d)) s)) :=
  withAct_valid _ hv ha

theorem exec_sinv_valid {s : State} {act : Act} (l : Sample) (hv : s.status.getLsbD 0 = true) (ha : s.act = some act) :
    exec (.sinv l) s = .next (reportOk (setResult (sampleWord (scaleInv act l.toNat)) s)) :=
  withAct_valid _ hv ha

/-- R184 in the terms of Safety: without a valid configuration the operation reports NoConfig and does nothing else. -/
theorem exec_noConfig_report {i : Instr} {s : State} (hn : needsConfig i = true) (hv : s.status.getLsbD 0 = false) :
    ∃ t, exec i s = .next t ∧ t = { s with status := t.status } ∧ ErrReport 4 s.status t.status :=
  ⟨_, exec_noConfig hn hv, rfl, raiseError_errReport .noConfig s⟩

/-! ### The statements -/

/-- Settles O32: RESULT holds the level, which is in 0..1530 and so survives the widening. -/
theorem sfwdGivesTheLevel : Obligations.SfwdGivesTheLevel := by
  intro d s _
  refine ⟨exec_noConfig_report rfl, fun act hv ha => ?_⟩
  have hle := scaleFwd_le act d
  have hres : (levelWord (scaleFwd act d)).toNat = scaleFwd act d := levelWord_toNat hle
  exact ⟨_, exec_sfwd_valid d hv ha, rfl, reportOk_okReport _, hres, scaleFwd_forwardLevel act d, hres.trans_le hle⟩

/-- Settles O33: RESULT holds the sample, and the active configuration is sound, so the depth it rounds is not negative. -/
theorem sinvGivesTheSample : Obligations.SinvGivesTheSample := by
  intro l s hI
  refine ⟨exec_noConfig_report rfl, fun act hv ha => ?_⟩
  exact ⟨_, exec_sinv_valid l hv ha, rfl, reportOk_okReport _, sampleWord_toNat _,
    scaleInv_inverseSample (hI.act_sound act ha) _⟩

/-- Settles O34: the two modes, each with both orders of the bounds. -/
theorem forwardMapSaturatesAndIsMonotone : Obligations.ForwardMapSaturatesAndIsMonotone := by
  rintro lo hi act (⟨rfl, hlo, -⟩ | ⟨rfl, hlo, hhi⟩)
  · exact forwardOrientation_linear hlo
  · exact forwardOrientation_inverse hlo hhi

/-- Settles O36: the configuration of a state that meets the invariant is sound, and R140 holds of a sound one. -/
theorem scalerMapsAreWellDefined : Obligations.ScalerMapsAreWellDefined := by
  intro s act hI ha
  have hA := hI.act_sound act ha
  refine ⟨hA.range_ne, fun l h1 h2 => ?_, scaled_range⟩
  exact ⟨levelDepth_convex hA, levelDepth_nonneg hA h2, levelDepth_pos hA h2 h1, depthOfLevel_nonneg hA h2⟩

end Sys2Proof.Machine
end

section
/-! The pixel operations (spec/42_image_codec.md, R150 to R154): the context a valid configuration gives, PENC and PDEC on
it as compositions of the scaler and the codec, and the round trip with the identity configuration. -/

namespace Sys2Proof.Machine

/-! ### The context of a valid configuration -/

/-- R45, R46: a state with an active configuration has VALID = 1 and the table CFG built. -/
theorem State.Inv.context_of_act {s : State} {act : Act} (hI : s.Inv) (ha : s.act = some act) :
    s.status.getLsbD 0 = true ∧ s.lut = some buildLut := by
  have hv : statusValid s.status = true := by rw [← hI.act_valid, ha]; rfl
  exact ⟨hv, hI.lut_valid.trans (if_pos hv)⟩

/-- R45: while VALID = 1 there is an active configuration. -/
theorem State.Inv.exists_act {s : State} (hI : s.Inv) (hv : s.status.getLsbD 0 = true) : ∃ act, s.act = some act :=
  Option.isSome_iff_exists.1 (hI.act_valid.trans hv)

/-! ### A report after a report -/

/-- The code a report leaves in LAST replaces the one an earlier report left there. -/
theorem setLast_setLast (w : Word) (c d : Nat) : setLast (setLast w c) d = setLast w d := by
  apply BitVec.eq_of_getLsbD_eq
  intro i hi
  by_cases hout : i < 16 ∨ 20 ≤ i
  · simp only [setLast_getLsbD _ _ _ hi hout]
  · obtain ⟨h1, h2⟩ : 16 ≤ i ∧ i < 20 := by omega
    interval_cases i <;> simp [setLast]

/-- Of two successful operations that write RESULT only, the second decides what is left. -/
theorem reportOk_setResult_reportOk_setResult (v w : Word) (s : State) :
    reportOk (setResult v (reportOk (setResult w s))) = reportOk (setResult v s) := by
  simp only [reportOk, setResult, setLast_setLast]

/-- R191: the success report leaves VALID as it was. -/
theorem reportOk_valid (s : State) : (reportOk s).status.getLsbD 0 = s.status.getLsbD 0 :=
  setLast_getLsbD s.status 0 0 (by omega) (by omega)

/-- A level read from RESULT and written back as a 16-bit operand is that level. -/
theorem operand_of_levelWord {l : Nat} (h : l ≤ Config.levelMax) :
    (BitVec.ofNat 16 (levelWord l).toNat).toNat = l := by
  rw [levelWord_toNat h, BitVec.toNat_ofNat]
  unfold Config.levelMax at h
  omega

/-! ### The operations on a valid configuration -/

/-- R102: VENC of a level in 0..1530 succeeds. -/
theorem exec_venc_level {v : Sample} (hv : v.toNat ≤ Config.levelMax) (s : State) :
    exec (.venc v) s = .next (reportOk (setResult (tripleWord (vEnc v.toNat)) s)) :=
  if_neg (Nat.not_lt.2 hv)

/-- R150, R151: PENC writes the code point of the sample's level, since the table is the one CFG built. -/
theorem exec_penc_valid {s : State} {act : Act} (d : Sample) (hI : s.Inv) (ha : s.act = some act) :
    exec (.penc d) s = .next (reportOk (setResult (tripleWord (vEnc (scaleFwd act d))) s)) := by
  obtain ⟨hv, hl⟩ := hI.context_of_act ha
  rw [← pixEnc_buildLut]
  exact (withAct_valid _ hv ha).trans (withLut_some _ hl)

/-- R152, R153: PDEC writes the sample of the triple's level. -/
theorem exec_pdec_valid {s : State} {act : Act} (r g b : Byte) (hv : s.status.getLsbD 0 = true)
    (ha : s.act = some act) :
    exec (.pdec r g b) s = .next (reportOk (setResult (sampleWord (scaleInv act (vDec ⟨r, g, b⟩))) s)) :=
  withAct_valid _ hv ha

/-! ### The identity configuration -/

/-- The active configuration (0, 1530, 1530, linear) of R154. -/
def identityAct : Act := ⟨0, 1530, 1530, false⟩

theorem identityAct_sound : identityAct.Sound where
  range_eq := by norm_num [identityAct]
  range_ne := by norm_num [identityAct]
  min_nonneg := le_rfl
  max_nonneg := by norm_num [identityAct]
  min_pos := Bool.noConfusion
  max_pos := Bool.noConfusion

/-- A natural number is its own rounding. -/
theorem isRounded_natCast (n : Nat) : IsRounded (n : Rat) n := by
  constructor <;> linarith

theorem samplePosition_identity (d : Sample) : samplePosition identityAct d = (d.toNat : Rat) / 1530 := by
  simp [samplePosition, sampleCoord, identityAct]

/-- R154: the forward map of the identity configuration is the identity up to 1530 and saturates there. -/
theorem scaleFwd_identity (d : Sample) : scaleFwd identityAct d = min d.toNat 1530 := by
  rcases Nat.lt_or_ge 1530 d.toNat with hgt | hle
  · have hpos : 1 ≤ samplePosition identityAct d := by
      rw [samplePosition_identity, one_le_div (by norm_num)]
      exact_mod_cast hgt.le
    rw [scaleFwd_of_one_le_position (by omega) hpos, min_eq_right hgt.le]
  · rw [min_eq_left hle]
    by_cases h0 : d.toNat = 0
    · rw [scaleFwd_of_zero h0, h0]
    · have h1 : (d.toNat : Rat) / 1530 ≤ 1 := (div_le_one (by norm_num)).2 (by exact_mod_cast hle)
      have hclamp : clamp01 ((d.toNat : Rat) / 1530) = (d.toNat : Rat) / 1530 := by
        rw [clamp01, max_eq_left (by positivity), min_eq_left h1]
      have hround := scaleFwd_isRounded (act := identityAct) h0
      rw [samplePosition_identity, hclamp, mul_div_cancel₀ _ (by norm_num)] at hround
      exact hround.unique (isRounded_natCast _)

theorem depthOfLevel_identity (l : Nat) : depthOfLevel identityAct l = (l : Rat) := by
  simp [depthOfLevel, identityAct]

/-- R154: the inverse map of the identity configuration is the identity on 0..1530. -/
theorem scaleInv_identity {l : Nat} (h : l ≤ 1530) : (scaleInv identityAct l).toNat = l := by
  obtain ⟨hinvalid, hvalid⟩ := scaleInv_inverseSample identityAct_sound l
  by_cases h0 : l = 0
  · rw [hinvalid (.inl h0), h0]
  · obtain ⟨n, hn, hres⟩ := hvalid (by omega) h
    rw [depthOfLevel_identity] at hn
    have hnl := hn.unique (isRounded_natCast l)
    omega

/-- R154: a sample in 0..1530 comes back through the identity configuration. -/
theorem scaleInv_scaleFwd_identity {d : Sample} (h : d.toNat ≤ 1530) :
    scaleInv identityAct (scaleFwd identityAct d) = d := by
  rw [scaleFwd_identity, min_eq_left h]
  exact BitVec.eq_of_toNat_eq (scaleInv_identity h)

/-! ### The statements -/

/-- Settles O37: SFWD leaves the level in RESULT, VENC of it succeeds, and its report replaces that of SFWD. -/
theorem pencIsSfwdThenVenc : Obligations.PencIsSfwdThenVenc := by
  intro d s hI
  refine ⟨exec_noConfig_report rfl, fun hv => ?_⟩
  obtain ⟨act, ha⟩ := hI.exists_act hv
  have hle := scaleFwd_le act d
  have hop := operand_of_levelWord hle
  refine ⟨_, _, exec_penc_valid d hI ha, exec_sfwd_valid d hv ha, ?_, rfl, reportOk_okReport _, fun act' ha' => ?_⟩
  · rw [reportOk_result, setResult_result, exec_venc_level (hop.trans_le hle), hop,
      reportOk_setResult_reportOk_setResult]
  · obtain rfl : act = act' := Option.some.inj (ha.symm.trans ha')
    exact tripleWord_toNat _

/-- Settles O38: VDEC leaves the level in RESULT and VALID as it was, and the report of SINV replaces that of VDEC. -/
theorem pdecIsVdecThenSinv : Obligations.PdecIsVdecThenSinv := by
  intro r g b s hI
  refine ⟨exec_noConfig_report rfl, fun hv => ?_⟩
  obtain ⟨act, ha⟩ := hI.exists_act hv
  have hop := operand_of_levelWord (vDec_le ⟨r, g, b⟩)
  have hvalid : (reportOk (setResult (levelWord (vDec ⟨r, g, b⟩)) s)).status.getLsbD 0 = true :=
    (reportOk_valid _).trans hv
  refine ⟨_, _, exec_pdec_valid r g b hv ha, exec_vdec r g b s, ?_, rfl, reportOk_okReport _, fun act' ha' => ?_⟩
  · rw [reportOk_result, setResult_result, exec_sinv_valid _ hvalid ha, hop, reportOk_setResult_reportOk_setResult]
  · obtain rfl : act = act' := Option.some.inj (ha.symm.trans ha')
    exact sampleWord_toNat _

/-- Settles O39: the triple in RESULT is the code point of the level, which the decoder gives back (R105). -/
theorem pixelRoundTrip : Obligations.PixelRoundTrip := by
  intro d s act hI ha
  have hv := (hI.context_of_act ha).1
  refine ⟨_, _, exec_penc_valid d hI ha, exec_pdec_valid _ _ _ ((reportOk_valid _).trans hv) ha, ?_⟩
  have hround : vDec (vEnc (scaleFwd act d)) = scaleFwd act d := vDec_vEnc (scaleFwd_le act d)
  simp only [reportOk_result, setResult_result, sampleWord_toNat, triple_of_tripleWord, hround, true_and]
  intro hact
  obtain rfl : act = identityAct := hact
  rw [scaleFwd_identity]
  exact ⟨scaleInv_identity (min_le_right _ _),
    fun h => ⟨min_eq_left h, BitVec.eq_of_toNat_eq (scaleInv_identity h)⟩⟩

end Sys2Proof.Machine
end

section
/-! The image passes (spec/42_image_codec.md, R155 to R168): a pass on admitted extents pixel by pixel, the refusal of bad
descriptors, and the round trip of a whole image. -/

namespace Sys2Proof.Machine

/-! ### Pixels in memory -/

/-- R65: a sample lies at an address when its two bytes do. -/
theorem sampleAt_of_bytes {m : Memory} {a : Nat} {v : Sample}
    (h : ∀ i, i < depthSize → Memory.read m (a + i) = sampleByte v i) : sampleAt m a = v := by
  have hlo : Memory.read m a = sampleByte v 0 := h 0 (by decide)
  have hhi : Memory.read m (a + 1) = sampleByte v 1 := h 1 (by decide)
  apply BitVec.eq_of_toNat_eq
  simp only [sampleAt, hlo, hhi, sampleByte, BitVec.toNat_ofNat]
  omega

/-- R65: a triple lies at an address when its three bytes do. -/
theorem tripleAt_of_bytes {m : Memory} {a : Nat} {t : Triple}
    (h : ∀ i, i < colourSize → Memory.read m (a + i) = tripleByte t i) : tripleAt m a = t := by
  have hr : Memory.read m a = t.r := h 0 (by decide)
  have hg : Memory.read m (a + 1) = t.g := h 1 (by decide)
  have hb : Memory.read m (a + 2) = t.b := h 2 (by decide)
  rw [tripleAt, hr, hg, hb]

/-! ### The passes on a valid configuration -/

/-- R155: IENC on a valid configuration is the pass with PixEnc on the table CFG built. -/
theorem exec_ienc_valid {s : State} {act : Act} (hI : s.Inv) (ha : s.act = some act) :
    exec .ienc s = .next (imagePass s .u16c1 depthSize colourSize 2#8 (readSample s.platform s.mem)
      (writeTriple s.platform) (pixEnc act buildLut)) := by
  obtain ⟨hv, hl⟩ := hI.context_of_act ha
  exact (withAct_valid _ hv ha).trans (withLut_some _ hl)

/-- R161: IDEC on a valid configuration is the pass with PixDec. -/
theorem exec_idec_valid {s : State} {act : Act} (hv : s.status.getLsbD 0 = true) (ha : s.act = some act) :
    exec .idec s = .next (imagePass s .u8c3 colourSize depthSize 1#8 (readTriple s.platform s.mem)
      (writeSample s.platform) (pixDec act)) :=
  withAct_valid _ hv ha

/-- R33, R159, R164: what a completed pass leaves: the given memory, the source size and the given type in the destination
descriptor, and the success report. -/
def passResult (s : State) (m : Memory) (code : Byte) : State :=
  reportOk { s with mem := m, dstDim := s.srcDim, dstFmt := setFmtType s.dstFmt code }

/-- R158 to R160: IENC on an accepted source with both extents admitted. -/
theorem exec_ienc_complete {s : State} {act : Act} (hI : s.Inv) (ha : s.act = some act) (hready : PassReady s 1 2 3)
    (hsrc : SourceAdmitted s 2) (hdst : DestAdmitted s 3) :
    ∃ m, exec .ienc s = .next (passResult s m 2#8) ∧ Memory.wf m = true ∧
      (∀ k, k < pixelCount s → tripleAt m (s.dstAddr.toNat + 3 * k) =
        vEnc (scaleFwd act (sampleAt s.mem (s.srcAddr.toNat + 2 * k)))) ∧
      ∀ a, a < s.dstAddr.toNat ∨ s.dstAddr.toNat + 3 * pixelCount s ≤ a → Memory.read m a = Memory.read s.mem a := by
  obtain ⟨m, hpass, hwf, hpixels, hframe⟩ := imagePass_complete (code := 2#8) (pixEnc act buildLut) hI.mem_wf
    (readSample_reader _ _) (writeTriple_writer _) ((descriptorsOk_ienc s).2 hready) hsrc hdst
  refine ⟨m, (exec_ienc_valid hI ha).trans (congrArg _ hpass), hwf, fun k hk => ?_, hframe⟩
  rw [← pixEnc_buildLut]
  exact tripleAt_of_bytes (hpixels k hk)

/-- R163 to R165: IDEC on an accepted source with both extents admitted. -/
theorem exec_idec_complete {s : State} {act : Act} (hv : s.status.getLsbD 0 = true) (ha : s.act = some act)
    (hm : Memory.wf s.mem = true) (hready : PassReady s 2 3 2) (hsrc : SourceAdmitted s 3) (hdst : DestAdmitted s 2) :
    ∃ m, exec .idec s = .next (passResult s m 1#8) ∧ Memory.wf m = true ∧
      (∀ k, k < pixelCount s → sampleAt m (s.dstAddr.toNat + 2 * k) =
        scaleInv act (vDec (tripleAt s.mem (s.srcAddr.toNat + 3 * k)))) ∧
      ∀ a, a < s.dstAddr.toNat ∨ s.dstAddr.toNat + 2 * pixelCount s ≤ a → Memory.read m a = Memory.read s.mem a := by
  obtain ⟨m, hpass, hwf, hpixels, hframe⟩ := imagePass_complete (code := 1#8) (pixDec act) hm
    (readTriple_reader _ _) (writeSample_writer _) ((descriptorsOk_idec s).2 hready) hsrc hdst
  exact ⟨m, (exec_idec_valid hv ha).trans (congrArg _ hpass), hwf, fun k hk => sampleAt_of_bytes (hpixels k hk), hframe⟩

/-! ### Bad descriptors -/

/-- R156, R162: a pass whose descriptors are not accepted only reports InvalidInput. -/
theorem imagePass_refused {α β : Type} {s : State} {ty : ElemType} {src dst : Nat} {code : Byte} {rd : Nat → Option α}
    {wr : Memory → Nat → β → Option Memory} (pixel : α → β) (h : ¬ descriptorsOk s ty src dst = true) :
    imagePass s ty src dst code rd wr pixel = raiseError .invalidInput s :=
  if_neg h

/-- The InvalidInput report in the terms of Safety (R181). -/
theorem invalidInput_report {i : Instr} {s : State} (h : exec i s = .next (raiseError .invalidInput s)) :
    ∃ t, exec i s = .next t ∧ t = { s with status := t.status } ∧ ErrReport 1 s.status t.status :=
  ⟨_, h, rfl, raiseError_errReport .invalidInput s⟩

/-! ### From the colour image back -/

/-- R168: the state after IENC once the host has made its destination the source of a second pass to `dst`. -/
def turnAround (t : State) (dst : Word) : State :=
  { t with srcAddr := t.dstAddr, srcDim := t.dstDim, srcFmt := t.dstFmt, dstAddr := dst }

/-- The image IENC leaves is an accepted source of IDEC: type U8C3, the size of the first image, and an extent that the
first pass has checked as its destination. -/
theorem passReady_turnAround {s : State} {m : Memory} {dst : Word} (hI : s.Inv) (hready : PassReady s 1 2 3)
    (hdst : dst.toNat + 2 * pixelCount s ≤ 2 ^ 32) : PassReady (turnAround (passResult s m 2#8) dst) 2 3 2 := by
  obtain ⟨-, hpixels, -, hcolour⟩ := hready
  have htype : (setFmtType s.dstFmt 2#8).toNat = 2 := setFmtType_toNat hI.dst_reserved 2#8
  exact ⟨congrArg (· % 256) htype, hpixels, hcolour, hdst⟩

/-! ### The statements -/

/-- Settles O40: the completed pass, each pixel's level being that of R134. -/
theorem iencEncodesEveryPixel : Obligations.IencEncodesEveryPixel := by
  intro s act hI ha hready hsrc hdst
  obtain ⟨m, hexec, hwf, hpixels, hframe⟩ := exec_ienc_complete hI ha hready hsrc hdst
  exact ⟨_, hexec, rfl, setFmtType_toNat hI.dst_reserved 2#8, reportOk_okReport _, hwf,
    fun k hk => ⟨_, scaleFwd_forwardLevel act _, hpixels k hk⟩, hframe⟩

/-- Settles O41: the completed pass, each pixel's sample being that of R136 since the configuration is sound. -/
theorem idecDecodesEveryPixel : Obligations.IdecDecodesEveryPixel := by
  intro s act hI ha hready hsrc hdst
  have hv := (hI.context_of_act ha).1
  obtain ⟨m, hexec, hwf, hpixels, hframe⟩ := exec_idec_complete hv ha hI.mem_wf hready hsrc hdst
  refine ⟨_, hexec, rfl, setFmtType_toNat hI.dst_reserved 1#8, reportOk_okReport _, hwf, fun k hk => ?_, hframe⟩
  have hinv := scaleInv_inverseSample (hI.act_sound act ha) (vDec (tripleAt s.mem (s.srcAddr.toNat + 3 * k)))
  rwa [← hpixels k hk] at hinv

/-- Settles O42: the checks of R156 and R162 are the passes' first step, after the one for a configuration. -/
theorem imagePassRefusesBadDescriptors : Obligations.ImagePassRefusesBadDescriptors := by
  intro s hI
  refine ⟨fun hv hbad => ?ienc, fun hv hbad => ?idec, fun hv i hi => ?noConfig⟩
  case ienc =>
    obtain ⟨act, ha⟩ := hI.exists_act hv
    refine invalidInput_report ((exec_ienc_valid hI ha).trans (congrArg _ (imagePass_refused _ ?_)))
    rwa [descriptorsOk_ienc]
  case idec =>
    obtain ⟨act, ha⟩ := hI.exists_act hv
    refine invalidInput_report ((exec_idec_valid hv ha).trans (congrArg _ (imagePass_refused _ ?_)))
    rwa [descriptorsOk_idec]
  case noConfig =>
    have hneeds : needsConfig i = true := by
      rcases List.mem_pair.1 hi with rfl | rfl <;> rfl
    exact exec_noConfig_report hneeds hv

/-- Settles O44: IDEC reads the triples IENC wrote, and decoding a code point gives its level back (R105). -/
theorem imageRoundTrip : Obligations.ImageRoundTrip := by
  intro s act dst2 hI ha hready hsrc hdst hdst2 hsrc2 hfits
  obtain ⟨m, hienc, hwf, htriples, -⟩ := exec_ienc_complete hI ha hready hsrc hdst
  have hv : (turnAround (passResult s m 2#8) dst2).status.getLsbD 0 = true :=
    (reportOk_valid _).trans (hI.context_of_act ha).1
  obtain ⟨m2, hidec, -, hsamples, -⟩ := exec_idec_complete (act := act) hv ha hwf
    (passReady_turnAround hI hready hfits) hsrc2 hdst2
  refine ⟨_, _, hienc, hidec, rfl, reportOk_last _, fun k hk => ?_⟩
  have hlevel : sampleAt m2 (dst2.toNat + 2 * k) =
      scaleInv act (scaleFwd act (sampleAt s.mem (s.srcAddr.toNat + 2 * k))) :=
    calc sampleAt m2 (dst2.toNat + 2 * k)
        = scaleInv act (vDec (tripleAt m (s.dstAddr.toNat + 3 * k))) := hsamples k hk
      _ = scaleInv act (vDec (vEnc (scaleFwd act (sampleAt s.mem (s.srcAddr.toNat + 2 * k))))) := by rw [htriples k hk]
      _ = scaleInv act (scaleFwd act (sampleAt s.mem (s.srcAddr.toNat + 2 * k))) := by rw [vDec_vEnc (scaleFwd_le _ _)]
  refine ⟨hlevel, fun hact hle => ?_⟩
  obtain rfl : act = identityAct := hact
  exact hlevel.trans (scaleInv_scaleFwd_identity hle)

end Sys2Proof.Machine
end

section
/-! Reports in STATUS (spec/60_exceptions.md, R184 and R190): what an error report changes, and the NoConfig report of the
operations that need a configuration. -/

namespace Sys2Proof.Machine

/-- Settles O18: the check for a configuration is the first step of each of the six operations, before any read of ACT,
the table or memory. -/
theorem noConfigOnlyReports : Obligations.NoConfigOnlyReports :=
  fun _ _ => exec_noConfig_report

/-- Settles O16: the report is a write to STATUS alone, and bit by bit it is that of R190. -/
theorem errorReportSetsItsBitAndLast : Obligations.ErrorReportSetsItsBitAndLast :=
  fun e s => ⟨rfl, raiseError_errReport e s⟩

end Sys2Proof.Machine
end

section
/-! Command words and operations (spec/30_encoding.md): the decoder and the encoder are inverse to each other (R82,
R89), a word decodes exactly when a row of the opcode table accepts it (R86), and the assembler's words are the encoder's. -/

namespace Sys2Proof.Machine

open Sys2Proof.Laws

/-! ### One format at a time -/

/-- R89: the opcode of a format H word is its low byte. -/
theorem encodeH_opcode (op : Byte) (v : Sample) : (encodeH op v).toNat % 256 = op.toNat := by
  have hop := op.isLt
  rw [encodeH_toNat]
  omega

/-- R89: the opcode of a format T word is its low byte. -/
theorem encodeT_opcode (op r g b : Byte) : (encodeT op r g b).toNat % 256 = op.toNat := by
  have hop := op.isLt
  rw [encodeT_toNat]
  omega

theorem decodeH_encodeH (op : Byte) (v : Sample) (mk : Sample → Instr) : decodeH (encodeH op v) mk = .ok (mk v) := by
  have hop := op.isLt
  have hv := v.isLt
  have hw := encodeH_toNat op v
  obtain ⟨v', hdecode, hv'⟩ := decodeH_ok (w := encodeH op v) mk (by omega)
  rw [hdecode, BitVec.eq_of_toNat_eq (x := v') (y := v) (by omega)]

theorem decodeT_encodeT (op r g b : Byte) (mk : Byte → Byte → Byte → Instr) :
    decodeT (encodeT op r g b) mk = .ok (mk r g b) := by
  have hop := op.isLt
  have hr := r.isLt
  have hg := g.isLt
  have hb := b.isLt
  have hw := encodeT_toNat op r g b
  obtain ⟨r', g', b', hdecode, hr', hg', hb'⟩ := decodeT_ok (encodeT op r g b) mk
  rw [hdecode, BitVec.eq_of_toNat_eq (x := r') (y := r) (by omega),
    BitVec.eq_of_toNat_eq (x := g') (y := g) (by omega), BitVec.eq_of_toNat_eq (x := b') (y := b) (by omega)]

section FormatInverse

variable {w : Word} {op : Byte} {i : Instr} (hop : fieldOp w = op)
include hop

/-- A word that format H accepts is the word of the operation it gives. -/
theorem encode_of_decodeH {mk : Sample → Instr} (h : decodeH w mk = .ok i) (hmk : ∀ v, encode (mk v) = encodeH op v) :
    encode i = w := by
  by_cases hz : w.toNat / 2 ^ 24 = 0
  · obtain ⟨v, hok, hv⟩ := decodeH_ok mk hz
    obtain rfl : mk v = i := Except.ok.inj (hok.symm.trans h)
    rw [hmk, ← hop]
    apply BitVec.eq_of_toNat_eq
    rw [encodeH_toNat, fieldOp_toNat]
    omega
  · rw [decodeH_reserved mk hz] at h
    nomatch h

/-- Every word of format T is the word of the operation it gives. -/
theorem encode_of_decodeT {mk : Byte → Byte → Byte → Instr} (h : decodeT w mk = .ok i)
    (hmk : ∀ r g b, encode (mk r g b) = encodeT op r g b) : encode i = w := by
  obtain ⟨r, g, b, hok, hr, hg, hb⟩ := decodeT_ok w mk
  obtain rfl : mk r g b = i := Except.ok.inj (hok.symm.trans h)
  rw [hmk, ← hop]
  apply BitVec.eq_of_toNat_eq
  rw [encodeT_toNat, fieldOp_toNat]
  omega

/-- A word that format N accepts is the word of the operation it gives. -/
theorem encode_of_decodeN {j : Instr} (h : decodeN w j = .ok i) (hj : encode j = encodeN op) : encode i = w := by
  by_cases hz : w.toNat / 2 ^ 8 = 0
  · obtain rfl : j = i := Except.ok.inj ((decodeN_ok j hz).symm.trans h)
    rw [hj, ← hop]
    apply BitVec.eq_of_toNat_eq
    rw [encodeN_toNat, fieldOp_toNat]
    omega
  · rw [decodeN_reserved j hz] at h
    nomatch h

end FormatInverse

/-! ### The whole decoder -/

/-- R82, R89: decoding the word of an operation gives the operation back. -/
@[simp] theorem decode_encode (i : Instr) : decode (encode i) = .ok i := by
  cases i with
  | venc v => exact (decode_venc (encodeH_opcode _ v)).trans (decodeH_encodeH _ v _)
  | vdec r g b => exact (decode_vdec (encodeT_opcode _ r g b)).trans (decodeT_encodeT _ r g b _)
  | sfwd d => exact (decode_sfwd (encodeH_opcode _ d)).trans (decodeH_encodeH _ d _)
  | sinv l => exact (decode_sinv (encodeH_opcode _ l)).trans (decodeH_encodeH _ l _)
  | penc d => exact (decode_penc (encodeH_opcode _ d)).trans (decodeH_encodeH _ d _)
  | pdec r g b => exact (decode_pdec (encodeT_opcode _ r g b)).trans (decodeT_encodeT _ r g b _)
  | cfg | ienc | idec => rfl

/-- R82: a word that decodes to an operation is that operation's word. -/
theorem encode_of_decode {w : Word} {i : Instr} (h : decode w = .ok i) : encode i = w := by
  unfold decode at h
  split_ifs at h with hop hop hop hop hop hop hop hop hop
  · exact encode_of_decodeH hop h fun _ => rfl
  · exact encode_of_decodeT hop h fun _ _ _ => rfl
  · exact encode_of_decodeN hop h rfl
  · exact encode_of_decodeH hop h fun _ => rfl
  · exact encode_of_decodeH hop h fun _ => rfl
  · exact encode_of_decodeH hop h fun _ => rfl
  · exact encode_of_decodeT hop h fun _ _ _ => rfl
  · exact encode_of_decodeN hop h rfl
  · exact encode_of_decodeN hop h rfl

/-- R82, R89: the words that decode to an operation are exactly its word. -/
theorem decode_eq_ok_iff {w : Word} {i : Instr} : decode w = .ok i ↔ encode i = w :=
  ⟨encode_of_decode, fun h => h ▸ decode_encode i⟩

/-! ### The opcode table (R86) -/

/-- The word of every operation is accepted by a row that carries the operation's mnemonic. -/
theorem tableRow (i : Instr) : TableRow.Statement i := by
  cases i with
  | venc v => exact TableRow.venc v
  | vdec r g b => exact TableRow.vdec r g b
  | cfg => exact TableRow.cfg
  | sfwd d => exact TableRow.sfwd d
  | sinv l => exact TableRow.sinv l
  | penc d => exact TableRow.penc d
  | pdec r g b => exact TableRow.pdec r g b
  | ienc => exact TableRow.ienc
  | idec => exact TableRow.idec

/-- Two rows of the table with one mnemonic are one row. -/
theorem opcodeTable_mnemonic_injective {row row' : OpRow} (h : row ∈ opcodeTable) (h' : row' ∈ opcodeTable)
    (hm : row.mnemonic = row'.mnemonic) : row = row' :=
  List.inj_on_of_nodup_map (f := OpRow.mnemonic) (by decide) h h' hm

/-- A mask that keeps the low byte keeps the opcode. -/
theorem fieldOp_of_masked {w mask pattern : Word} (hmask : fieldOp mask = 0xFF#8) (h : w &&& mask = pattern) :
    fieldOp w = fieldOp pattern := by
  calc fieldOp w = fieldOp w &&& fieldOp mask := by rw [hmask]; exact BitVec.and_allOnes.symm
    _ = fieldOp (w &&& mask) := BitVec.extractLsb'_and.symm
    _ = fieldOp pattern := congrArg fieldOp h

/-- A mask that keeps the high byte keeps the must-be-zero field of format H. -/
theorem fieldB_of_masked {w mask pattern : Word} (hmask : fieldB mask = 0xFF#8) (h : w &&& mask = pattern) :
    fieldB w = fieldB pattern := by
  calc fieldB w = fieldB w &&& fieldB mask := by rw [hmask]; exact BitVec.and_allOnes.symm
    _ = fieldB (w &&& mask) := BitVec.extractLsb'_and.symm
    _ = fieldB pattern := congrArg fieldB h

section Rows

variable {w pattern : Word}

/-- The rows of format H: opcode and must-be-zero field are those of the pattern. -/
theorem decode_of_rowH {mk : Sample → Instr} (h : w &&& 0xFF0000FF#32 = pattern) (hz : fieldB pattern = 0x00#8)
    (hsel : w.toNat % 256 = (fieldOp pattern).toNat → decode w = decodeH w mk) : ∃ v, decode w = .ok (mk v) := by
  obtain ⟨v, hok, -⟩ := decodeH_ok mk ((fieldB_eq_zero_iff w).1 ((fieldB_of_masked rfl h).trans hz))
  exact ⟨v, (hsel ((fieldOp_eq_iff w _).1 (fieldOp_of_masked rfl h))).trans hok⟩

/-- The rows of format T: the opcode is that of the pattern. -/
theorem decode_of_rowT {mk : Byte → Byte → Byte → Instr} (h : w &&& 0x000000FF#32 = pattern)
    (hsel : w.toNat % 256 = (fieldOp pattern).toNat → decode w = decodeT w mk) :
    ∃ r g b, decode w = .ok (mk r g b) :=
  ⟨_, _, _, hsel ((fieldOp_eq_iff w _).1 (fieldOp_of_masked rfl h))⟩

/-- The rows of format N: the word is the pattern. -/
theorem decode_of_rowN {i : Instr} (h : w &&& 0xFFFFFFFF#32 = pattern) (hp : decode pattern = .ok i) :
    decode w = .ok i := by
  obtain rfl : w = pattern := BitVec.and_allOnes.symm.trans h
  exact hp

end Rows

/-- A word that a row accepts decodes to an operation of the row's mnemonic. -/
theorem decode_of_row {w : Word} {row : OpRow} (hrow : row ∈ opcodeTable) (h : w &&& row.mask = row.pattern) :
    ∃ i, decode w = .ok i ∧ i.mnemonic = row.mnemonic := by
  simp only [opcodeTable, List.mem_cons, List.not_mem_nil, or_false] at hrow
  obtain rfl | rfl | rfl | rfl | rfl | rfl | rfl | rfl | rfl := hrow
  · obtain ⟨v, hv⟩ := decode_of_rowH h rfl decode_venc
    exact ⟨_, hv, rfl⟩
  · obtain ⟨r, g, b, ht⟩ := decode_of_rowT h decode_vdec
    exact ⟨_, ht, rfl⟩
  · exact ⟨.cfg, decode_of_rowN h rfl, rfl⟩
  · obtain ⟨d, hd⟩ := decode_of_rowH h rfl decode_sfwd
    exact ⟨_, hd, rfl⟩
  · obtain ⟨l, hl⟩ := decode_of_rowH h rfl decode_sinv
    exact ⟨_, hl, rfl⟩
  · obtain ⟨d, hd⟩ := decode_of_rowH h rfl decode_penc
    exact ⟨_, hd, rfl⟩
  · obtain ⟨r, g, b, ht⟩ := decode_of_rowT h decode_pdec
    exact ⟨_, ht, rfl⟩
  · exact ⟨.ienc, decode_of_rowN h rfl, rfl⟩
  · exact ⟨.idec, decode_of_rowN h rfl, rfl⟩

/-- A row accepts a word exactly when the word decodes to an operation of the row's mnemonic. -/
theorem row_accepts_iff {w : Word} {row : OpRow} (hrow : row ∈ opcodeTable) :
    w &&& row.mask = row.pattern ↔ ∃ i, decode w = .ok i ∧ i.mnemonic = row.mnemonic := by
  refine ⟨decode_of_row hrow, ?_⟩
  rintro ⟨i, hi, hname⟩
  obtain ⟨row', hrow', hname', hacc⟩ := tableRow i
  obtain rfl : row' = row := opcodeTable_mnemonic_injective hrow' hrow (hname'.trans hname)
  rw [encode_of_decode hi] at hacc
  exact eq_of_beq hacc

/-! ### The assembler (R89) -/

/-- R89: the arithmetic of format H is the encoder's. -/
theorem ofNat_formatH {op v : Nat} (hop : op < 256) (hv : v ≤ 65535) :
    BitVec.ofNat 32 (v * 2 ^ 8 + op) = encodeH (BitVec.ofNat 8 op) (BitVec.ofNat 16 v) := by
  apply BitVec.eq_of_toNat_eq
  rw [encodeH_toNat]
  simp only [BitVec.toNat_ofNat]
  omega

/-- R89: the arithmetic of format T is the encoder's. -/
theorem ofNat_formatT {op r g : Nat} (hop : op < 256) (hr : r ≤ 255) (hg : g ≤ 255) (b : Nat) :
    BitVec.ofNat 32 (b * 2 ^ 24 + g * 2 ^ 16 + r * 2 ^ 8 + op) =
      encodeT (BitVec.ofNat 8 op) (BitVec.ofNat 8 r) (BitVec.ofNat 8 g) (BitVec.ofNat 8 b) := by
  apply BitVec.eq_of_toNat_eq
  rw [encodeT_toNat]
  simp only [BitVec.toNat_ofNat]
  omega

theorem inU16_iff {v : Nat} : inU16 v = true ↔ v ≤ 65535 := decide_eq_true_iff

theorem inU8_iff {c : Nat} : inU8 c = true ↔ c ≤ 255 := decide_eq_true_iff

/-- A 16-bit operand in range survives the assembler. -/
theorem sample_toNat {v : Nat} (h : v ≤ 65535) : (BitVec.ofNat 16 v).toNat = v := by
  rw [BitVec.toNat_ofNat]
  omega

/-- R89: an accepted statement stands for an operation that writes it down, and its word is that operation's word. -/
theorem asm_of_wellFormed {a : AsmOp} (h : a.wellFormed = true) :
    ∃ i, asmInstr a = some i ∧ i.toAsm = a ∧ asmWord a = some (encode i) := by
  refine ⟨_, if_pos h, ?toAsm, (if_pos h).trans (congrArg some ?word)⟩
  case toAsm =>
    cases a with
    | venc v | sfwd v | sinv v | penc v => exact congrArg _ (sample_toNat (inU16_iff.1 h))
    | vdec r g b | pdec r g b =>
      simp only [AsmOp.wellFormed, Bool.and_eq_true, inU8_iff] at h
      obtain ⟨⟨hr, hg⟩, hb⟩ := h
      simp only [Instr.toAsm, byte_toNat hr, byte_toNat hg, byte_toNat hb]
    | cfg | ienc | idec => rfl
  case word =>
    cases a with
    | venc v | sfwd v | sinv v | penc v => exact ofNat_formatH (by decide) (inU16_iff.1 h)
    | vdec r g b | pdec r g b =>
      simp only [AsmOp.wellFormed, Bool.and_eq_true, inU8_iff] at h
      obtain ⟨⟨hr, hg⟩, -⟩ := h
      exact ofNat_formatT (by decide) hr hg b
    | cfg | ienc | idec => rfl

/-! ### The statements -/

/-- Settles O4: each word is the encoder's word of its operation, which the decoder gives back. -/
theorem specWordsDecodeAsWritten : Obligations.SpecWordsDecodeAsWritten :=
  ⟨decode_encode (.venc 256#16), decode_encode (.vdec 200#8 100#8 50#8), decode_encode .cfg, decode_encode (.sfwd 5#16),
    decode_encode (.sinv 1530#16), decode_encode (.penc 5#16), decode_encode (.pdec 0#8 255#8 254#8),
    decode_encode .ienc, decode_encode .idec⟩

/-- Settles O1: the decoder and the encoder are inverse to each other, format by format. -/
theorem everyOperationRoundTrips : Obligations.EveryOperationRoundTrips :=
  ⟨fun i _ => decode_encode i, fun _ _ => encode_of_decode⟩

/-- Settles O2: a row accepts the words of its mnemonic's operations and no others, and every operation has a row. -/
theorem decoderAcceptsExactlyTheTable : Obligations.DecoderAcceptsExactlyTheTable := by
  intro w
  refine ⟨fun row hrow => row_accepts_iff hrow, ?_⟩
  constructor
  · rintro ⟨e, he⟩ row hrow h
    obtain ⟨i, hi, -⟩ := decode_of_row hrow h
    rw [he] at hi
    nomatch hi
  · intro hno
    cases hd : decode w with
    | error e => exact ⟨e, rfl⟩
    | ok i =>
      obtain ⟨row, hrow, hname, -⟩ := tableRow i
      exact absurd ((row_accepts_iff hrow).2 ⟨i, hd, hname.symm⟩) (hno row hrow)

/-- Settles O6: the word of an accepted statement is the encoder's word of its operation. -/
theorem assemblerMakesNoIllegalCommand : Obligations.AssemblerMakesNoIllegalCommand := by
  intro a
  refine ⟨fun h => if_neg (ne_true_of_eq_false h), fun h => ?_⟩
  obtain ⟨i, hi, hasm, hw⟩ := asm_of_wellFormed h
  exact ⟨encode i, i, hw, hi, decode_encode i, hasm⟩

end Sys2Proof.Machine
end

section
/-! What an operation can do: the fields it writes, then one report in STATUS (spec/60_exceptions.md R189 to R191). The
reports, the sticky bits and the frame of every operation follow from that, and the one fault from the reads of ACT and
LUT (spec/10_state.md R45). -/

namespace Sys2Proof.Machine

/-! ### The writes of an operation, by name -/

/-- The configuration CFG writes before its report (R132, R133). -/
def writeConfig (act : Option Act) (lut : Option Lut) (valid eps : Bool) (s : State) : State :=
  { s with act := act, lut := lut, status := setEpsSub (setValid s.status valid) eps }

@[simp] theorem writeConfig_valid (act : Option Act) (lut : Option Lut) (valid eps : Bool) (s : State) :
    statusValid (writeConfig act lut valid eps s).status = valid :=
  (statusValid_setEpsSub _ _).trans (statusValid_setValid _ _)

/-- The image a completed pass writes before its report (R33, R159, R164). -/
def writeImage (m : Memory) (code : Byte) (s : State) : State :=
  { s with mem := m, dstDim := s.srcDim, dstFmt := setFmtType s.dstFmt code }

/-- The memory a write-phase bus error leaves, with the draw counted (R64). -/
def writeFree (m : Memory) (s : State) : State := { s with mem := m, draws := s.draws + 1 }

theorem execCfg_of_some {s : State} {act : Act} {eps : Bool}
    (h : deriveConfig s.cfgMinM s.cfgMaxM s.cfgScale (modeInverse s.cfgMode) = some (act, eps)) :
    execCfg s = .next (reportOk (writeConfig (some act) (some buildLut) true eps s)) := by
  simp only [execCfg, h]
  rfl

theorem execCfg_of_none {s : State}
    (h : deriveConfig s.cfgMinM s.cfgMaxM s.cfgScale (modeInverse s.cfgMode) = none) :
    execCfg s = .next (raiseError .badConfig (writeConfig none none false false s)) :=
  exec_cfg_of_none h

/-! ### Fields, then a report -/

/-- The state `u` an operation `i` leaves before its report: what it wrote of the state `s`. -/
inductive Wrote (i : Instr) (s : State) : State → Prop where
  /-- Nothing: the error is found before any field is written. -/
  | nothing : Wrote i s s
  /-- A scalar result (R25). -/
  | result (hc : i ≠ .cfg) (hm : usesMemory i = false) (v : Word) : Wrote i s (setResult v s)
  /-- The configuration CFG commits (R132). -/
  | commit (hc : i = .cfg) {act : Act} {eps : Bool}
      (hd : deriveConfig s.cfgMinM s.cfgMaxM s.cfgScale (modeInverse s.cfgMode) = some (act, eps)) :
      Wrote i s (writeConfig (some act) (some buildLut) true eps s)
  /-- The configuration CFG loses (R133). -/
  | lose (hc : i = .cfg) : Wrote i s (writeConfig none none false false s)
  /-- A completed image pass: memory and the destination descriptor (R33, R158, R163). -/
  | image (hm : usesMemory i = true) {m : Memory} (hwf : Memory.wf s.mem = true → Memory.wf m = true) (code : Byte) :
      Wrote i s (writeImage m code s)
  /-- A write-phase bus error: free bytes in the destination extent (R64). -/
  | freeBytes (hm : usesMemory i = true) (n : Nat) :
      Wrote i s (writeFree (scramble s.platform s.draws s.mem s.dstAddr.toNat n) s)

/-- The state `t` a report leaves of the state `u` (R190, R191). -/
inductive Reported (u : State) : State → Prop where
  | ok : Reported u (reportOk u)
  | error (e : ErrorKind) : Reported u (raiseError e u)

/-- R45, R184: what `withAct` answers with a next state. -/
theorem withAct_next {s t : State} {k : Act → Host.Outcome State Fault Refusal} (h : withAct s k = .next t) :
    t = raiseError .noConfig s ∨ ∃ act, k act = .next t := by
  obtain ⟨-, e⟩ | ⟨act, -, -, e⟩ | ⟨-, -, e⟩ := withAct_cases s k <;> rw [e] at h
  · exact .inl (Host.Outcome.next.inj h).symm
  · exact .inr ⟨act, h⟩
  · nomatch h

/-- What `withLut` answers with a next state. -/
theorem withLut_next {s t : State} {k : Lut → Host.Outcome State Fault Refusal} (h : withLut s k = .next t) :
    ∃ lut, k lut = .next t := by
  obtain ⟨lut, -, e⟩ | ⟨-, e⟩ := withLut_cases s k <;> rw [e] at h
  · exact ⟨lut, h⟩
  · nomatch h

/-- The write phase keeps the canonical form of memory. -/
theorem PixelWriter.wf_writePixels {α : Type} {p : Platform} {wr : Memory → Nat → α → Option Memory} {esize : Nat}
    {bytes : α → Nat → Byte} (W : PixelWriter p wr esize bytes) : ∀ (xs : List α) {m m' : Memory} {a : Nat},
    writePixels wr esize m a xs = some m' → Memory.wf m = true → Memory.wf m' = true
  | [], _, _, _, h, hm => Option.some.inj h ▸ hm
  | x :: xs, m, m', a, h, hm => by
    cases hA : admitsAll p .write a esize with
    | false => rw [writePixels, W.refuses m a x hA] at h; nomatch h
    | true =>
      obtain ⟨m1, e1, w1, -, -⟩ := W.writes m a x hm hA
      rw [writePixels, e1] at h
      exact W.wf_writePixels xs h w1

/-- An image pass writes nothing, free bytes or the image, and reports (R155, R161). -/
theorem imagePass_wrote {α β : Type} {i : Instr} {s : State} {dst : Nat} {wr : Memory → Nat → β → Option Memory}
    {bytes : β → Nat → Byte} (hm : usesMemory i = true) (W : PixelWriter s.platform wr dst bytes) (ty : ElemType)
    (src : Nat) (code : Byte) (rd : Nat → Option α) (pixel : α → β) :
    ∃ u, Wrote i s u ∧ Reported u (imagePass s ty src dst code rd wr pixel) := by
  obtain ⟨-, e⟩ | ⟨-, -, e⟩ | ⟨xs, -, -, -, e⟩ | ⟨xs, m, -, -, hw, e⟩ :=
    imagePass_cases s ty src dst code rd wr pixel <;> rw [e]
  · exact ⟨s, .nothing, .error _⟩
  · exact ⟨s, .nothing, .error _⟩
  · exact ⟨_, .freeBytes hm _, .error _⟩
  · exact ⟨_, .image hm (W.wf_writePixels _ hw) code, .ok⟩

/-- R189: an operation that completes has written the fields of its kind and made one report. -/
theorem exec_next {i : Instr} {s t : State} (h : exec i s = .next t) : ∃ u, Wrote i s u ∧ Reported u t := by
  have noConfig : ∃ u, Wrote i s u ∧ Reported u (raiseError .noConfig s) := ⟨s, .nothing, .error _⟩
  have scalar (hc : i ≠ .cfg) (hm : usesMemory i = false) (v : Word) :
      ∃ u, Wrote i s u ∧ Reported u (reportOk (setResult v s)) := ⟨_, .result hc hm v, .ok⟩
  cases i with
  | venc v =>
    by_cases hv : Config.levelMax < v.toNat
    · obtain rfl := Host.Outcome.next.inj ((if_pos hv).symm.trans h)
      exact ⟨_, .result (by simp) rfl _, .error _⟩
    · obtain rfl := Host.Outcome.next.inj ((if_neg hv).symm.trans h)
      exact scalar (by simp) rfl _
  | vdec r g b =>
    obtain rfl := Host.Outcome.next.inj h
    exact scalar (by simp) rfl _
  | cfg =>
    cases hd : deriveConfig s.cfgMinM s.cfgMaxM s.cfgScale (modeInverse s.cfgMode) with
    | none =>
      obtain rfl := Host.Outcome.next.inj ((execCfg_of_none hd).symm.trans h)
      exact ⟨_, .lose rfl, .error _⟩
    | some c =>
      obtain rfl := Host.Outcome.next.inj ((execCfg_of_some hd).symm.trans h)
      exact ⟨_, .commit rfl hd, .ok⟩
  | sfwd | sinv | pdec =>
    obtain rfl | ⟨act, h⟩ := withAct_next h
    · exact noConfig
    · obtain rfl := Host.Outcome.next.inj h
      exact scalar (by simp) rfl _
  | penc d =>
    obtain rfl | ⟨act, h⟩ := withAct_next h
    · exact noConfig
    · obtain ⟨lut, h⟩ := withLut_next h
      obtain rfl := Host.Outcome.next.inj h
      exact scalar (by simp) rfl _
  | ienc =>
    obtain rfl | ⟨act, h⟩ := withAct_next h
    · exact noConfig
    · obtain ⟨lut, h⟩ := withLut_next h
      obtain rfl := Host.Outcome.next.inj h
      exact imagePass_wrote rfl (writeTriple_writer _) ..
  | idec =>
    obtain rfl | ⟨act, h⟩ := withAct_next h
    · exact noConfig
    · obtain rfl := Host.Outcome.next.inj h
      exact imagePass_wrote rfl (writeSample_writer _) ..

/-! ### What the fields and the report leave of STATUS -/

/-- Before the report no bit of STATUS but VALID and EPS_SUB is written. -/
theorem Wrote.status_bit {i : Instr} {s u : State} (h : Wrote i s u) {k : Nat} (h2 : 2 ≤ k) (hk : k < 32) :
    u.status.getLsbD k = s.status.getLsbD k := by
  cases h with
  | nothing | result | image | freeBytes => rfl
  | commit | lose => exact setEpsSub_setValid_getLsbD _ _ _ h2 hk

/-- An operation other than CFG writes nothing of STATUS before the report. -/
theorem Wrote.status_eq {i : Instr} {s u : State} (h : Wrote i s u) (hc : i ≠ .cfg) : u.status = s.status := by
  cases h with
  | nothing | result | image | freeBytes => rfl
  | commit hi | lose hi => exact absurd hi hc

/-- R190, R191: a report clears no bit below LAST. -/
theorem Reported.status_bit {u t : State} (h : Reported u t) {k : Nat} (hk : k < 16)
    (hset : u.status.getLsbD k = true) : t.status.getLsbD k = true := by
  cases h with
  | ok => exact (setLast_getLsbD u.status 0 k (by omega) (.inl hk)).trans hset
  | error e =>
    rw [raiseError_bit e u (by omega) (.inl hk), hset, ite_self]

/-- R190, R191: a report leaves the two bits below the sticky bits as they were. -/
theorem Reported.status_low {u t : State} (h : Reported u t) {k : Nat} (hk : k < 4) :
    t.status.getLsbD k = u.status.getLsbD k := by
  cases h with
  | ok => exact setLast_getLsbD u.status 0 k (by omega) (by omega)
  | error e =>
    have hge := stickyBit_ge e
    rw [raiseError_bit e u (by omega) (by omega), if_neg (by omega)]

/-- The error report sets no other sticky bit than its own (R190). -/
theorem raiseError_sticky_other {e e' : ErrorKind} (s : State) (hne : e' ≠ e) :
    statusSticky (raiseError e s).status e' = statusSticky s.status e' := by
  have hlt := stickyBit_lt e'
  exact (raiseError_bit e s (by omega) (by omega)).trans (if_neg (mt stickyBit_injective hne))

/-- R180: each sticky bit is one of bits 4 to 9, so the fields an operation writes leave it as it was. -/
theorem Wrote.sticky {i : Instr} {s u : State} (h : Wrote i s u) (e : ErrorKind) :
    statusSticky u.status e = statusSticky s.status e := by
  have hge := stickyBit_ge e
  have hlt := stickyBit_lt e
  exact h.status_bit (by omega) (by omega)

/-! ### The frame -/

/-- The fields no operation writes: the staging registers, the source descriptor, DST_ADDR, the platform and the host's
side. -/
def FrameKept (s t : State) : Prop :=
  t.cfgMinM = s.cfgMinM ∧ t.cfgMaxM = s.cfgMaxM ∧ t.cfgScale = s.cfgScale ∧ t.cfgMode = s.cfgMode ∧
    t.srcAddr = s.srcAddr ∧ t.srcDim = s.srcDim ∧ t.srcFmt = s.srcFmt ∧ t.dstAddr = s.dstAddr ∧
    t.platform = s.platform ∧ t.host = s.host ∧ t.readData = s.readData

/-- A report writes STATUS and nothing else. -/
theorem Reported.eq {u t : State} (h : Reported u t) : t = { u with status := t.status } := by
  cases h <;> rfl

theorem Wrote.frame {i : Instr} {s u : State} (h : Wrote i s u) : FrameKept s u := by
  cases h <;> exact ⟨rfl, rfl, rfl, rfl, rfl, rfl, rfl, rfl, rfl, rfl, rfl⟩

/-- Only CFG writes ACT and LUT. -/
theorem Wrote.context {i : Instr} {s u : State} (h : Wrote i s u) (hc : i ≠ .cfg) : u.act = s.act ∧ u.lut = s.lut := by
  cases h with
  | nothing | result | image | freeBytes => exact ⟨rfl, rfl⟩
  | commit hi | lose hi => exact absurd hi hc

/-- Only the scalar operations write RESULT. -/
theorem Wrote.result_eq {i : Instr} {s u : State} (h : Wrote i s u) (hi : i = .cfg ∨ usesMemory i = true) :
    u.result = s.result := by
  cases h with
  | nothing | commit | lose | image | freeBytes => rfl
  | result hc hm => simp [hc, hm] at hi

/-- Only IENC and IDEC write memory, the destination descriptor and the draw counter. -/
theorem Wrote.memory_eq {i : Instr} {s u : State} (h : Wrote i s u) (hi : usesMemory i = false) :
    u.mem = s.mem ∧ u.dstDim = s.dstDim ∧ u.dstFmt = s.dstFmt ∧ u.draws = s.draws := by
  cases h with
  | nothing | result | commit | lose => exact ⟨rfl, rfl, rfl, rfl⟩
  | image hm | freeBytes hm => simp [hm] at hi

/-! ### The fault -/

/-- The model has one fault. -/
theorem Fault.eq_contextUnspecified (r : Fault) : r = .contextUnspecified := by
  cases r
  rfl

/-- R45: `withAct` faults where ACT has no value, or where the operation itself does. -/
theorem withAct_fault_iff {s : State} {k : Act → Host.Outcome State Fault Refusal} {r : Fault} :
    withAct s k = .fault r ↔ statusValid s.status = true ∧
      (s.act = none ∨ ∃ act, s.act = some act ∧ k act = .fault r) := by
  obtain ⟨hv, e⟩ | ⟨act, hv, ha, e⟩ | ⟨hv, ha, e⟩ := withAct_cases s k <;> simp [*, r.eq_contextUnspecified]

/-- `withLut` faults where LUT has no value, or where the operation itself does. -/
theorem withLut_fault_iff {s : State} {k : Lut → Host.Outcome State Fault Refusal} {r : Fault} :
    withLut s k = .fault r ↔
      s.lut = none ∨ ∃ lut, s.lut = some lut ∧ k lut = .fault r := by
  obtain ⟨lut, hl, e⟩ | ⟨hl, e⟩ := withLut_cases s k <;> simp [*, r.eq_contextUnspecified]

/-- R45: what an operation that reads ACT or LUT finds without a value. -/
def ContextMissing (i : Instr) (s : State) : Prop :=
  s.act = none ∨ (s.lut = none ∧ ((∃ d, i = .penc d) ∨ i = .ienc))

/-- The operations that need no configuration never fault. -/
theorem exec_ne_fault {i : Instr} (h : needsConfig i = false) (s : State) (r : Fault) : exec i s ≠ .fault r := by
  intro hf
  cases i with
  | venc v => by_cases hv : Config.levelMax < v.toNat <;> simp [exec, execVenc, hv] at hf
  | vdec => nomatch hf
  | cfg =>
    cases hd : deriveConfig s.cfgMinM s.cfgMaxM s.cfgScale (modeInverse s.cfgMode) <;> simp [exec, execCfg, hd] at hf
  | sfwd | sinv | penc | pdec | ienc | idec => nomatch h

/-- An operation with a valid configuration faults exactly on a missing value that it reads. -/
theorem exec_fault_iff {i : Instr} {s : State} {r : Fault} (hn : needsConfig i = true) :
    exec i s = .fault r ↔ statusValid s.status = true ∧ ContextMissing i s := by
  cases i with
  | venc | vdec | cfg => nomatch hn
  | sfwd | sinv | pdec | idec => exact withAct_fault_iff.trans (by simp [ContextMissing])
  | penc | ienc =>
    refine withAct_fault_iff.trans ?_
    simp only [withLut_fault_iff]
    cases ha : s.act <;> simp [ContextMissing, ha]

/-! ### The statements -/

/-- Settles O17: the fields are written first and leave the sticky bits, then the one report is made. -/
theorem operationReportsAtMostOneError : Obligations.OperationReportsAtMostOneError := by
  intro i s t h
  obtain ⟨u, hu, ht⟩ := exec_next h
  cases ht with
  | ok => exact .inl ⟨reportOk_last u, fun e => (statusSticky_setLast u.status 0 e).trans (hu.sticky e)⟩
  | error e =>
    obtain ⟨hlast, hset, -⟩ := raiseError_errReport e u
    exact .inr ⟨e, hlast, hset, fun e' hne => (raiseError_sticky_other u hne).trans (hu.sticky e')⟩

/-- Settles O21: neither the fields an operation writes nor its report clear a sticky bit. -/
theorem noOperationClearsStickyBits : Obligations.NoOperationClearsStickyBits := by
  intro i s t k h h4 h9 hset
  obtain ⟨u, hu, ht⟩ := exec_next h
  exact ht.status_bit (by omega) ((hu.status_bit (by omega) (by omega)).trans hset)

/-- Settles O50: the fields an operation writes are those of its kind, and a report writes STATUS alone. -/
theorem operationsWriteOnlyTheirState : Obligations.OperationsWriteOnlyTheirState := by
  intro i s t h
  obtain ⟨u, hu, ht⟩ := exec_next h
  have hlow {k : Nat} (hc : i ≠ .cfg) (hk : k < 4) : t.status.getLsbD k = s.status.getLsbD k :=
    (ht.status_low hk).trans (congrArg (·.getLsbD k) (hu.status_eq hc))
  rw [ht.eq]
  refine ⟨hu.frame, fun hc => ?context, hu.result_eq, fun hm => ?memory⟩
  case context =>
    obtain ⟨hact, hlut⟩ := hu.context hc
    exact ⟨hact, hlut, hlow hc (by omega), hlow hc (by omega)⟩
  case memory =>
    obtain ⟨hmem, hdim, hfmt, hdraws⟩ := hu.memory_eq hm
    exact ⟨fun a => congrArg (Memory.read · a) hmem, hmem, hdim, hfmt, hdraws⟩

/-- Settles O56: only the reads of ACT and LUT fault, and there is one fault. -/
theorem faultOnlyWithoutContext : Obligations.FaultOnlyWithoutContext := by
  intro i s r
  cases hn : needsConfig i with
  | false => simp [exec_ne_fault hn]
  | true =>
    rw [exec_fault_iff hn]
    exact ⟨fun ⟨hv, hm⟩ => ⟨r.eq_contextUnspecified, rfl, hv, hm⟩, fun ⟨_, _, hv, hm⟩ => ⟨hv, hm⟩⟩

end Sys2Proof.Machine
end

section
/-! The host's side of a step (spec/10_state.md R13, R23, R26 to R36): reads and writes of the register window at every
aligned offset, the accesses that are refused (R34), Reset and stores to memory, and the expansion of SETSRC (R90). -/

namespace Sys2Proof.Machine

/-! ### Offsets of the window -/

theorem eq_regOffset {off : Word} (r : Reg) (h : off.toNat = (regOffset r).toNat) : off = regOffset r :=
  BitVec.eq_of_toNat_eq h

/-- R23: an offset that names a register is that register's. -/
theorem regOffset_of_regAt {off : Word} {r : Reg} (h : regAt off = some r) : regOffset r = off := by
  unfold regAt at h
  iterate 13
    obtain ⟨hoff, hr⟩ | ⟨-, h⟩ := ite_eq_iff.1 h
    · rw [← Option.some.inj hr, hoff]
      rfl
  nomatch h

/-- R34: from 0x34 upward there is no register. -/
theorem regAt_above {off : Word} (h : 0x34 ≤ off.toNat) : regAt off = none := by
  cases hr : regAt off with
  | none => rfl
  | some r =>
    rw [← regOffset_of_regAt hr] at h
    cases r <;> exact absurd h (by decide)

theorem accessDefined_of_aligned {off : Word} (h : off.toNat % 4 = 0) : accessDefined .word off = true :=
  (accessDefined_iff .word off).2 ⟨rfl, h⟩

/-! ### Reads -/

/-- R23: the window at a register's offset is that register. -/
theorem readWindow_of_eq {off : Word} (r : Reg) (h : off.toNat = (regOffset r).toNat) (s : State) :
    readWindow s off = readReg s r := by
  rw [eq_regOffset r h, readWindow, regAt_regOffset]

/-- R34: from 0x34 upward the window reads 0. -/
theorem readWindow_above {off : Word} (h : 0x34 ≤ off.toNat) (s : State) : readWindow s off = 0#32 := by
  rw [readWindow, regAt_above h]

/-- R35: a step with an aligned read pending gives the value of the window and changes nothing else. -/
theorem step_of_host_read {s : State} {off : Word} {rest : List HostAction} (h : s.host = .read .word off :: rest)
    (ha : off.toNat % 4 = 0) :
    step s = .next { s with host := rest, readData := readWindow { s with host := rest } off } :=
  (step_of_host_cons h).trans (if_pos (accessDefined_of_aligned ha))

/-! ### Writes -/

/-- R34: an aligned write at or above 0x34 is ignored. -/
theorem hostWrite_above {off : Word} (ha : off.toNat % 4 = 0) (h : 0x34 ≤ off.toNat) (v : Word) (s : State) :
    hostWrite .word off v s = .next s := by
  simp only [hostWrite, accessDefined_of_aligned ha, regAt_above h, if_true]

/-- R26: a write to a register other than CMD completes. -/
theorem writeReg_next {r : Reg} (hr : r ≠ .cmd) (v : Word) (s : State) : ∃ t, writeReg r v s = .next t := by
  cases r with
  | cmd => exact absurd rfl hr
  | status | result | cfgMinM | cfgMaxM | cfgScale | cfgMode | srcAddr | srcDim | srcFmt | dstAddr | dstDim | dstFmt =>
    exact ⟨_, rfl⟩

/-- R26, R34: an aligned write at an offset other than that of CMD completes. -/
theorem hostWrite_next {off : Word} (ha : off.toNat % 4 = 0) (h0 : off.toNat ≠ 0) (v : Word) (s : State) :
    ∃ t, hostWrite .word off v s = .next t := by
  simp only [hostWrite, accessDefined_of_aligned ha, if_true]
  cases hr : regAt off with
  | none => exact ⟨s, rfl⟩
  | some r =>
    refine writeReg_next (fun e => h0 ?_) v s
    rw [← regOffset_of_regAt hr, e]
    rfl

/-- R28: the writable bit of CFG_MODE. -/
theorem and_modeMask_toNat (v : Word) : (v &&& modeMask).toNat = v.toNat % 2 :=
  Nat.and_two_pow_sub_one_eq_mod v.toNat 1

/-- R31: the writable bits of a FMT register. -/
theorem and_fmtMask_toNat (v : Word) : (v &&& fmtMask).toNat = v.toNat % 256 :=
  Nat.and_two_pow_sub_one_eq_mod v.toNat 8

/-! ### Refusals -/

theorem commandWrite_ne_refused (w : Word) (s : State) (r : Refusal) : commandWrite w s ≠ .refused r := by
  intro h
  unfold commandWrite at h
  split at h
  · exact exec_ne_refused _ s r h
  · nomatch h

theorem writeReg_ne_refused (reg : Reg) (v : Word) (s : State) (r : Refusal) : writeReg reg v s ≠ .refused r := by
  intro h
  by_cases hc : reg = .cmd
  · subst hc
    exact commandWrite_ne_refused v s r h
  · obtain ⟨t, ht⟩ := writeReg_next hc v s
    rw [ht] at h
    nomatch h

/-- R34: a host write is refused exactly when the access is not defined. -/
theorem hostWrite_refused_iff {size : AccessSize} {off v : Word} {s : State} {r : Refusal} :
    hostWrite size off v s = .refused r ↔ r = .registerAccessUndefined ∧ accessDefined size off = false := by
  unfold hostWrite
  split
  case isTrue hd =>
    simp only [hd, Bool.true_eq_false, and_false, iff_false]
    split
    · exact writeReg_ne_refused _ v s r
    · exact nofun
  case isFalse hd => simp [hd, eq_comm]

/-- R34: a host read is refused exactly when the access is not defined. -/
theorem hostRead_refused_iff {size : AccessSize} {off : Word} {s : State} {r : Refusal} :
    hostRead size off s = .refused r ↔ r = .registerAccessUndefined ∧ accessDefined size off = false := by
  unfold hostRead
  split
  case isTrue hd => simp [hd]
  case isFalse hd => simp [hd, eq_comm]

/-- R34: an access is not defined exactly when it is narrower than 32 bits or misaligned. -/
theorem accessDefined_eq_false_iff (size : AccessSize) (off : Word) :
    accessDefined size off = false ↔ size ≠ .word ∨ off.toNat % 4 ≠ 0 := by
  rw [← Bool.not_eq_true, accessDefined_iff, not_and_or]

/-! ### Runs -/

/-- A run goes on from the next state of its first step. -/
theorem run_succ_of_step {s t : State} (k : Nat) (h : step s = .next t) :
    Sys2Proof.core.run (k + 1) s = Sys2Proof.core.run k t := by
  have hcore : Sys2Proof.core.step s = .next t := h
  simp only [Host.Core.run, hcore]

theorem dimWidth_dimWord (w h : Sample) : dimWidth (dimWord w h) = w.toNat :=
  congrArg BitVec.toNat BitVec.extractLsb'_append_eq_right

theorem dimHeight_dimWord (w h : Sample) : dimHeight (dimWord w h) = h.toNat :=
  congrArg BitVec.toNat BitVec.extractLsb'_append_eq_left

/-! ### The statements -/

/-- Settles O7: the next action is taken; at the offset of CMD it is the command write, which runs the operation. -/
theorem stepRunsTheDecodedCommand : Obligations.StepRunsTheDecodedCommand := by
  refine fun s rest => ⟨fun w i h hd => ?_, fun h => ?_⟩
  · refine (step_of_host_write .cmd h).trans ?_
    simp only [writeReg, commandWrite, hd]
  · simp only [step, h]

/-- Settles O9: the step is the event Reset, which writes HUEC's own fields only. -/
theorem resetLeavesTheOutside : Obligations.ResetLeavesTheOutside :=
  fun _ _ h => ⟨_, step_of_host_cons h, rfl, rfl, rfl, rfl⟩

/-- Settles O14: the step is one write to memory. -/
theorem hostStoreChangesOneByte : Obligations.HostStoreChangesOneByte := by
  intro s a b rest hm h
  refine ⟨_, step_of_host_cons h, rfl, Memory.wf_write b hm a.isLt, ?_, fun x hx => ?_⟩
  · exact (Memory.read_write hm ..).trans (if_pos rfl)
  · exact (Memory.read_write hm ..).trans (if_neg hx)

/-- Settles O10: the value read is the window's, which at each register's offset is that register. -/
theorem hostReadReturnsTheRegister : Obligations.HostReadReturnsTheRegister := by
  intro s off rest h ha
  have hread (r : Reg) (hr : off.toNat = (regOffset r).toNat) := readWindow_of_eq r hr { s with host := rest }
  exact ⟨_, step_of_host_read h ha, rfl, hread .cmd, hread .status, hread .result, hread .cfgMinM, hread .cfgMaxM,
    hread .cfgScale, hread .cfgMode, hread .srcAddr, hread .srcDim, hread .srcFmt, hread .dstAddr, hread .dstDim,
    hread .dstFmt, fun hr => readWindow_above hr _⟩

/-- Settles O11: the write completes, and what it leaves is what the register at the offset takes. -/
theorem hostWriteStoresTheWritableBits : Obligations.HostWriteStoresTheWritableBits := by
  intro s off v rest h ha h0 h4
  obtain ⟨t, ht⟩ := hostWrite_next ha h0 v { s with host := rest }
  have hreg (r : Reg) {t' : State} (hw : writeReg r v { s with host := rest } = .next t')
      (hr : off.toNat = (regOffset r).toNat) : t = t' := by
    rw [eq_regOffset r hr, hostWrite_regOffset, hw] at ht
    exact (Host.Outcome.next.inj ht).symm
  refine ⟨t, (step_of_host_cons h).trans ht, ?ignored, hreg .cfgMinM rfl, hreg .cfgMaxM rfl, hreg .cfgScale rfl,
    fun hr => ?mode, hreg .srcAddr rfl, hreg .srcDim rfl, fun hr => ?srcFmt, hreg .dstAddr rfl, hreg .dstDim rfl,
    fun hr => ?dstFmt⟩
  case ignored =>
    rintro (hr | habove)
    · exact hreg .result rfl hr
    · exact Host.Outcome.next.inj (ht.symm.trans (hostWrite_above ha habove v _))
  case mode =>
    obtain rfl := hreg .cfgMode rfl hr
    exact ⟨rfl, and_modeMask_toNat v⟩
  case srcFmt =>
    obtain rfl := hreg .srcFmt rfl hr
    exact ⟨rfl, and_fmtMask_toNat v⟩
  case dstFmt =>
    obtain rfl := hreg .dstFmt rfl hr
    exact ⟨rfl, and_fmtMask_toNat v⟩

/-- Settles O13: only an access of the window can be refused, and it is exactly when R34 does not define it. -/
theorem onlyUndefinedAccessesAreRefused : Obligations.OnlyUndefinedAccessesAreRefused := by
  intro s r
  constructor
  · intro h
    cases hh : s.host with
    | nil => simp only [step, hh] at h; nomatch h
    | cons a rest =>
      rw [step_of_host_cons hh] at h
      cases a with
      | write size off v =>
        obtain ⟨hr, hd⟩ := hostWrite_refused_iff.1 h
        exact ⟨hr, size, off, rest, (accessDefined_eq_false_iff size off).1 hd, .inl ⟨v, rfl⟩⟩
      | read size off =>
        obtain ⟨hr, hd⟩ := hostRead_refused_iff.1 h
        exact ⟨hr, size, off, rest, (accessDefined_eq_false_iff size off).1 hd, .inr rfl⟩
      | reset | memStore => nomatch h
  · rintro ⟨hr, size, off, rest, hd, ⟨v, hh⟩ | hh⟩
    · exact (step_of_host_cons hh).trans (hostWrite_refused_iff.2 ⟨hr, (accessDefined_eq_false_iff size off).2 hd⟩)
    · exact (step_of_host_cons hh).trans (hostRead_refused_iff.2 ⟨hr, (accessDefined_eq_false_iff size off).2 hd⟩)

/-- Settles O15: the expansion is three register writes, one step each. -/
theorem setSrcDescribesTheSource : Obligations.SetSrcDescribesTheSource := by
  intro s addr ty w h acts rest hacts hhost
  obtain rfl := Option.some.inj hacts
  refine ⟨{ s with host := rest, srcAddr := addr, srcDim := dimWord w h, srcFmt := ty &&& fmtMask }, ?_, rfl,
    dimWidth_dimWord w h, dimHeight_dimWord w h, and_fmtMask_toNat ty⟩
  calc Sys2Proof.core.run 3 s
      = Sys2Proof.core.run 2 _ := run_succ_of_step 2 (step_of_host_write .srcAddr hhost)
    _ = Sys2Proof.core.run 1 _ := run_succ_of_step 1 (step_of_host_write .srcDim rfl)
    _ = Sys2Proof.core.run 0 _ := run_succ_of_step 0 (step_of_host_write .srcFmt rfl)

end Sys2Proof.Machine
end

section
/-! The invariant (spec/10_state.md R24, R28, R31, R38, R40, R44 to R46, spec/60_exceptions.md R180): it holds after
Reset, a report and the fields an operation writes keep it, so every host action and every step keeps it; and in a state
that meets it every operation completes. -/

namespace Sys2Proof.Machine

/-! ### Reserved bits -/

/-- A masked word is zero when every bit of the mask is clear in it. -/
theorem and_eq_zero_iff {w mask : Word} :
    w &&& mask = 0#32 ↔ ∀ i, i < 32 → mask.getLsbD i = true → w.getLsbD i = false := by
  constructor
  · intro h i _ hmask
    have hbit := congrArg (·.getLsbD i) h
    simpa [hmask] using hbit
  · intro h
    apply BitVec.eq_of_getLsbD_eq
    intro i hi
    cases hmask : mask.getLsbD i <;> simp [hmask]
    exact h i hi hmask

/-- The reserved bits of STATUS lie outside VALID, EPS_SUB, the sticky bits and LAST (R24). -/
theorem statusReservedMask_bit {i : Nat} (h : statusReservedMask.getLsbD i = true) :
    2 ≤ i ∧ (i < 4 ∨ 10 ≤ i) ∧ (i < 16 ∨ 20 ≤ i) := by
  have hi : i < 32 := BitVec.lt_of_getLsbD h
  interval_cases i <;> first | omega | exact absurd h (by decide)

/-- R24: LAST is bits 19:16. -/
theorem statusLast_of_bits {w w' : Word} (h : ∀ i, 16 ≤ i → i < 20 → w'.getLsbD i = w.getLsbD i) :
    statusLast w' = statusLast w := by
  apply BitVec.eq_of_getLsbD_eq
  intro i hi
  simp only [statusLast, BitVec.getLsbD_extractLsb', h (16 + i) (by omega) (by omega)]

/-- A masked write leaves the reserved bits zero. -/
theorem and_mask_reserved (v mask : Word) : (v &&& mask) &&& ~~~mask = 0#32 := by
  rw [BitVec.and_assoc, BitVec.and_not_self]
  exact BitVec.and_zero

/-! ### Changes that keep the invariant -/

/-- What STATUS says of the configuration, and its reserved bits and LAST, decide the invariant's part about STATUS. -/
structure StatusFits (w w' : Word) : Prop where
  reserved : ∀ i, statusReservedMask.getLsbD i = true → w'.getLsbD i = w.getLsbD i
  last : (statusLast w').toNat ≤ 6
  valid : statusValid w' = statusValid w
  epsSub : statusEpsSub w' = statusEpsSub w

theorem reserved_of_bits {w w' : Word} (h : w &&& statusReservedMask = 0#32)
    (hbits : ∀ i, statusReservedMask.getLsbD i = true → w'.getLsbD i = w.getLsbD i) :
    w' &&& statusReservedMask = 0#32 :=
  and_eq_zero_iff.2 fun i hi hmask => (hbits i hmask).trans (and_eq_zero_iff.1 h i hi hmask)

theorem State.Inv.with_status {s : State} (hI : s.Inv) {w : Word} (h : StatusFits s.status w) :
    State.Inv { s with status := w } :=
  { hI with
    status_reserved := reserved_of_bits hI.status_reserved h.reserved
    last_code := h.last
    act_valid := hI.act_valid.trans h.valid.symm
    lut_valid := hI.lut_valid.trans (by rw [h.valid])
    eps_sub := fun he => hI.eps_sub (h.epsSub.symm.trans he) }

theorem stickyBit_le (e : ErrorKind) : stickyBit e ≤ 9 := by cases e <;> decide

theorem errorCode_le (e : ErrorKind) : errorCode e ≤ 6 := by cases e <;> decide

theorem ofNat4_toNat_le {c : Nat} (h : c ≤ 6) : (BitVec.ofNat 4 c).toNat ≤ 6 := by
  rw [BitVec.toNat_ofNat]
  omega

/-- R191: the success report keeps the invariant. -/
theorem State.Inv.reportOk {s : State} (hI : s.Inv) : (reportOk s).Inv :=
  hI.with_status
    { reserved := fun _ hi => setLast_getLsbD _ _ _ (BitVec.lt_of_getLsbD hi) (statusReservedMask_bit hi).2.2
      last := (congrArg BitVec.toNat (reportOk_last s)).trans_le (Nat.zero_le 6)
      valid := statusValid_setLast _ _
      epsSub := statusEpsSub_setLast _ _ }

/-- R190: an error report keeps the invariant. -/
theorem State.Inv.raiseError {s : State} (hI : s.Inv) (e : ErrorKind) : (raiseError e s).Inv :=
  hI.with_status
    { reserved := fun i hi => by
        have hsticky : i ≠ stickyBit e := by
          have hge := stickyBit_ge e
          have hle := stickyBit_le e
          have hout := statusReservedMask_bit hi
          omega
        exact (raiseError_bit e s (BitVec.lt_of_getLsbD hi) (statusReservedMask_bit hi).2.2).trans (if_neg hsticky)
      last := (congrArg BitVec.toNat (raiseError_last e s)).trans_le (ofNat4_toNat_le (errorCode_le e))
      valid := raiseError_valid e s
      epsSub := raiseError_epsSub e s }

theorem Reported.inv {u t : State} (h : Reported u t) (hI : u.Inv) : t.Inv := by
  cases h with
  | ok => exact hI.reportOk
  | error e => exact hI.raiseError e

/-! ### The configuration CFG derives -/

theorem actOfBounds_eq_some {minU maxU : Rat} {inv : Bool} {act : Act} (h : actOfBounds minU maxU inv = some act) :
    minU ≠ maxU ∧ act = ⟨minU, maxU, maxU - minU, inv⟩ := by
  by_cases hne : minU = maxU
  · subst hne
    rw [actOfBounds_self] at h
    nomatch h
  · exact ⟨hne, (Option.some.inj ((actOfBounds_of_ne inv hne).symm.trans h)).symm⟩

/-- R38: two different bounds that are not negative, and positive in inverse mode, give a sound configuration. -/
theorem sound_of_bounds {minU maxU : Rat} {inv : Bool} (hne : minU ≠ maxU) (h0 : 0 ≤ minU) (h1 : 0 ≤ maxU)
    (hpos : inv = true → 0 < minU ∧ 0 < maxU) : Act.Sound ⟨minU, maxU, maxU - minU, inv⟩ where
  range_eq := rfl
  range_ne := sub_ne_zero.2 hne.symm
  min_nonneg := h0
  max_nonneg := h1
  min_pos h := (hpos h).1
  max_pos h := (hpos h).2

theorem epsGuard_pos {q : Rat} (h : 0 ≤ q) : 0 < epsGuard q := by
  unfold epsGuard
  split
  case isTrue => rw [eps_eq]; norm_num
  case isFalse hne => exact lt_of_le_of_ne h (Ne.symm hne)

/-- R127, R128: a derived configuration comes from three finite values, the scale positive and no bound negative. -/
theorem deriveConfig_finite {pMin pMax pScale : Word} {inv : Bool} {c : Act × Bool}
    (h : deriveConfig pMin pMax pScale inv = some c) :
    ∃ m mx sc, f32val pMin = .finite m ∧ f32val pMax = .finite mx ∧ f32val pScale = .finite sc ∧
      ¬ (sc ≤ 0 ∨ m < 0 ∨ mx < 0) := by
  unfold deriveConfig at h
  split at h
  case h_1 m mx sc hm hmx hsc =>
    refine ⟨m, mx, sc, hm, hmx, hsc, fun hr => ?_⟩
    rw [if_pos hr] at h
    nomatch h
  case h_2 => nomatch h

/-- R38, R129 to R131: every configuration CFG derives is sound, and EPS_SUB tells of a substituted minimum. -/
theorem deriveConfig_sound {pMin pMax pScale : Word} {inv eps : Bool} {act : Act}
    (h : deriveConfig pMin pMax pScale inv = some (act, eps)) :
    act.Sound ∧ (eps = true → act.inverse = true ∧ act.minU = 1 / Config.eps) := by
  obtain ⟨m, mx, sc, hm, hmx, hsc, hr⟩ := deriveConfig_finite h
  obtain ⟨hs, hm0, hmx0⟩ : 0 < sc ∧ 0 ≤ m ∧ 0 ≤ mx := by simpa only [not_or, not_le, not_lt] using hr
  have hmin : 0 ≤ m / sc := div_nonneg hm0 hs.le
  have hmax : 0 ≤ mx / sc := div_nonneg hmx0 hs.le
  cases inv with
  | false =>
    rw [deriveConfig_linear hm hmx hsc hr, Option.map_eq_some_iff] at h
    obtain ⟨act', hb, hc⟩ := h
    obtain ⟨rfl, rfl⟩ := Prod.mk.inj hc
    obtain ⟨hne, rfl⟩ := actOfBounds_eq_some hb
    exact ⟨sound_of_bounds hne hmin hmax nofun, nofun⟩
  | true =>
    rw [deriveConfig_inverse hm hmx hsc hr] at h
    obtain ⟨-, h⟩ | ⟨hne0, h⟩ := ite_eq_iff.1 h
    · nomatch h
    · obtain ⟨act', hb, hc⟩ := Option.map_eq_some_iff.1 h
      obtain ⟨rfl, rfl⟩ := Prod.mk.inj hc
      obtain ⟨hne, rfl⟩ := actOfBounds_eq_some hb
      have hminPos : 0 < 1 / epsGuard (m / sc) := one_div_pos.2 (epsGuard_pos hmin)
      have hmaxPos : 0 < 1 / (mx / sc) := one_div_pos.2 (lt_of_le_of_ne hmax (Ne.symm hne0))
      refine ⟨sound_of_bounds hne hminPos.le hmaxPos.le fun _ => ⟨hminPos, hmaxPos⟩, fun heps => ⟨rfl, ?_⟩⟩
      exact congrArg (1 / ·) (if_pos (of_decide_eq_true heps))

/-! ### The fields an operation writes -/

/-- CFG leaves LAST to its report. -/
theorem statusLast_setEpsSub_setValid (w : Word) (valid eps : Bool) :
    statusLast (setEpsSub (setValid w valid) eps) = statusLast w :=
  statusLast_of_bits fun _ _ _ => setEpsSub_setValid_getLsbD w valid eps (by omega) (by omega)

/-- The configuration CFG writes, valid or not, fits its STATUS. -/
theorem State.Inv.with_config {s : State} (hI : s.Inv) {act : Option Act} {valid eps : Bool}
    (hv : act.isSome = valid) (hs : ∀ a, act = some a → a.Sound)
    (he : eps = true → ∃ a, act = some a ∧ a.inverse = true ∧ a.minU = 1 / Config.eps) :
    State.Inv (writeConfig act (if valid then some buildLut else none) valid eps s) :=
  { hI with
    status_reserved := reserved_of_bits hI.status_reserved fun _ hi =>
      setEpsSub_setValid_getLsbD _ _ _ (statusReservedMask_bit hi).1 (BitVec.lt_of_getLsbD hi)
    last_code := (congrArg BitVec.toNat (statusLast_setEpsSub_setValid ..)).trans_le hI.last_code
    act_valid := hv.trans (writeConfig_valid ..).symm
    act_sound := hs
    lut_valid := by rw [writeConfig_valid]; rfl
    eps_sub := fun h => he ((statusEpsSub_setEpsSub ..).symm.trans h) }

/-- The reserved bits of a FMT register lie above its type (R31). -/
theorem not_fmtMask_bit {i : Nat} (h : (~~~fmtMask).getLsbD i = true) : 8 ≤ i := by
  by_contra hlt
  interval_cases i <;> exact absurd h (by decide)

/-- R33: writing the type of a FMT register leaves its reserved bits zero. -/
theorem setFmtType_reserved {w : Word} (hw : w &&& ~~~fmtMask = 0#32) (c : Byte) :
    setFmtType w c &&& ~~~fmtMask = 0#32 := by
  have hwidth : setFmtType w c = c.setWidth 32 := by
    apply BitVec.eq_of_toNat_eq
    rw [setFmtType_toNat hw, BitVec.toNat_setWidth]
    omega
  rw [hwidth, and_eq_zero_iff]
  intro i _ hmask
  rw [BitVec.getLsbD_setWidth, BitVec.getLsbD_of_ge c i (not_fmtMask_bit hmask), Bool.and_false]

/-- The fields an operation writes before its report keep the invariant. -/
theorem Wrote.inv {i : Instr} {s u : State} (h : Wrote i s u) (hI : s.Inv) : u.Inv := by
  cases h with
  | nothing => exact hI
  | result => exact { hI with }
  | commit _ hd =>
    obtain ⟨hsound, heps⟩ := deriveConfig_sound hd
    exact hI.with_config rfl (fun a ha => Option.some.inj ha ▸ hsound) fun he => ⟨_, rfl, heps he⟩
  | lose => exact hI.with_config (act := none) rfl nofun nofun
  | image _ hwf code =>
    exact { hI with dst_reserved := setFmtType_reserved hI.dst_reserved code, mem_wf := hwf hI.mem_wf }
  | freeBytes _ n => exact { hI with mem_wf := wf_scramble _ _ hI.mem_wf }

/-- Every operation keeps the invariant. -/
theorem exec_inv {i : Instr} {s t : State} (hI : s.Inv) (h : exec i s = .next t) : t.Inv := by
  obtain ⟨u, hu, ht⟩ := exec_next h
  exact ht.inv (hu.inv hI)

/-! ### The host's actions -/

/-- The invariant says nothing of the host's side. -/
theorem State.Inv.with_host {s : State} (hI : s.Inv) (rest : List HostAction) : State.Inv { s with host := rest } :=
  { hI with }

theorem resetOn_inv (p : Platform) {m : Memory} (hm : Memory.wf m = true) : State.Inv (State.resetOn p m) where
  status_reserved := BitVec.zero_and
  last_code := by rw [resetOn_status]; decide
  mode_reserved := BitVec.zero_and
  src_reserved := BitVec.zero_and
  dst_reserved := BitVec.zero_and
  act_valid := by rw [resetOn_status]; rfl
  act_sound _ h := nomatch h
  lut_valid := by rw [resetOn_status]; rfl
  eps_sub h := by rw [resetOn_status] at h; exact absurd h (by decide)
  mem_wf := hm

/-- R36: a host write to STATUS keeps the invariant. -/
theorem State.Inv.statusHostWrite {s : State} (hI : s.Inv) (v : Word) :
    State.Inv { s with status := statusHostWrite s.status v } :=
  hI.with_status
    { reserved := fun i hi => statusHostWrite_getLsbD _ _ _ (BitVec.lt_of_getLsbD hi) (by
        have hout := statusReservedMask_bit hi
        omega)
      last := by
        rw [statusLast_of_bits fun i h16 _ => statusHostWrite_getLsbD s.status v i (by omega) (by omega)]
        exact hI.last_code
      valid := statusHostWrite_getLsbD _ _ _ (by omega) (by omega)
      epsSub := statusHostWrite_getLsbD _ _ _ (by omega) (by omega) }

theorem commandWrite_inv {w : Word} {s t : State} (hI : s.Inv) (h : commandWrite w s = .next t) : t.Inv := by
  unfold commandWrite at h
  split at h
  · exact exec_inv hI h
  · exact Host.Outcome.next.inj h ▸ hI.raiseError _

theorem writeReg_inv {r : Reg} {v : Word} {s t : State} (hI : s.Inv) (h : writeReg r v s = .next t) : t.Inv := by
  cases r with
  | cmd => exact commandWrite_inv hI h
  | status => exact Host.Outcome.next.inj h ▸ hI.statusHostWrite v
  | result => exact Host.Outcome.next.inj h ▸ hI
  | cfgMode => exact Host.Outcome.next.inj h ▸ { hI with mode_reserved := and_mask_reserved v modeMask }
  | srcFmt => exact Host.Outcome.next.inj h ▸ { hI with src_reserved := and_mask_reserved v fmtMask }
  | dstFmt => exact Host.Outcome.next.inj h ▸ { hI with dst_reserved := and_mask_reserved v fmtMask }
  | cfgMinM | cfgMaxM | cfgScale | srcAddr | srcDim | dstAddr | dstDim => exact Host.Outcome.next.inj h ▸ { hI with }

/-- Every host action keeps the invariant. -/
theorem perform_inv {a : HostAction} {s t : State} (hI : s.Inv) (h : perform a s = .next t) : t.Inv := by
  cases a with
  | write size off v =>
    obtain ⟨-, h⟩ | ⟨-, h⟩ := ite_eq_iff.1 h
    · cases hr : regAt off with
      | none => rw [hr] at h; exact Host.Outcome.next.inj h ▸ hI
      | some r => rw [hr] at h; exact writeReg_inv hI h
    · nomatch h
  | read size off =>
    obtain ⟨-, h⟩ | ⟨-, h⟩ := ite_eq_iff.1 h
    · exact Host.Outcome.next.inj h ▸ { hI with }
    · nomatch h
  | reset => exact Host.Outcome.next.inj h ▸ { resetOn_inv s.platform hI.mem_wf with }
  | memStore addr b => exact Host.Outcome.next.inj h ▸ { hI with mem_wf := Memory.wf_write b hI.mem_wf addr.isLt }

/-! ### Completion -/

/-- R44, R45: in a state that meets the invariant no value is missing while VALID = 1. -/
theorem State.Inv.not_contextMissing {s : State} (hI : s.Inv) (hv : statusValid s.status = true) (i : Instr) :
    ¬ ContextMissing i s := by
  obtain ⟨act, ha⟩ := hI.exists_act hv
  obtain ⟨-, hl⟩ := hI.context_of_act ha
  simp [ContextMissing, ha, hl]

theorem State.Inv.exec_ne_fault {s : State} (hI : s.Inv) (i : Instr) (r : Fault) : exec i s ≠ .fault r := by
  cases hn : needsConfig i with
  | false => exact Machine.exec_ne_fault hn s r
  | true => exact fun h => ((exec_fault_iff hn).1 h).elim fun hv => hI.not_contextMissing hv i

/-- A host action faults only when it is a command write whose operation does. -/
theorem perform_fault {a : HostAction} {s : State} {r : Fault} (h : perform a s = .fault r) :
    ∃ i, exec i s = .fault r := by
  cases a with
  | write size off v =>
    obtain ⟨-, h⟩ | ⟨-, h⟩ := ite_eq_iff.1 h
    · cases hr : regAt off with
      | none => rw [hr] at h; nomatch h
      | some reg =>
        rw [hr] at h
        cases reg with
        | cmd =>
          cases hd : decode v with
          | ok i => exact ⟨i, by simpa only [writeReg, commandWrite, hd] using h⟩
          | error e => simp [writeReg, commandWrite, hd] at h
        | status | result | cfgMinM | cfgMaxM | cfgScale | cfgMode | srcAddr | srcDim | srcFmt | dstAddr | dstDim
          | dstFmt => nomatch h
    · nomatch h
  | read size off =>
    obtain ⟨-, h⟩ | ⟨-, h⟩ := ite_eq_iff.1 h
    · nomatch h
    · nomatch h
  | reset | memStore => nomatch h

/-! ### The statements -/

/-- Settles O54: a step takes the next action, or waits; every action keeps the invariant. -/
theorem stepKeepsTheInvariant : Obligations.StepKeepsTheInvariant := by
  intro s t hI h
  cases hh : s.host with
  | nil =>
    simp only [step, hh] at h
    exact Host.Outcome.next.inj h ▸ hI
  | cons a rest => exact perform_inv (hI.with_host rest) ((step_of_host_cons hh).symm.trans h)

/-- Settles O53: every register is zero, ACT and LUT have no value, and memory is as given. -/
theorem resetMeetsTheInvariant : Obligations.ResetMeetsTheInvariant :=
  ⟨resetOn_inv Config.platform rfl, fun p _ hm => resetOn_inv p hm⟩

/-- Settles O55: of the three outcomes of an operation only the next state is left, and no other action faults. -/
theorem everyOperationCompletes : Obligations.EveryOperationCompletes := by
  refine fun s hI => ⟨fun i => ?_, fun r h => ?_⟩
  · cases he : exec i s with
    | next t => exact ⟨t, rfl⟩
    | fault r => exact absurd he (hI.exec_ne_fault i r)
    | refused r => exact absurd he (exec_ne_refused i s r)
  · cases hh : s.host with
    | nil => simp only [step, hh] at h; nomatch h
    | cons a rest =>
      obtain ⟨i, hi⟩ := perform_fault ((step_of_host_cons hh).symm.trans h)
      exact (hI.with_host rest).exec_ne_fault i r hi

end Sys2Proof.Machine
end

section
/-! What reaches an operation and what does not (spec/10_state.md R27, spec/20_memory.md R60, spec/60_exceptions.md
R192): an update of fields that an operation neither reads nor writes commutes with the operation. -/

namespace Sys2Proof.Machine

/-! ### The ends of an image pass, by name -/

section Pass

variable {α β : Type} {s : State} {ty : ElemType} {src dst : Nat} {code : Byte} {rd : Nat → Option α}
  {wr : Memory → Nat → β → Option Memory} {pixel : α → β} (hd : descriptorsOk s ty src dst = true)
include hd

/-- R64: a pass whose read phase meets a bus error. -/
theorem imagePass_of_read_none (hr : readPixels rd src s.srcAddr.toNat (dimPixels s.srcDim) = none) :
    imagePass s ty src dst code rd wr pixel = raiseError .busError s := by
  simp only [imagePass, hd, hr, if_true]

variable {xs : List α} (hr : readPixels rd src s.srcAddr.toNat (dimPixels s.srcDim) = some xs)
include hr

/-- R64: a pass whose write phase meets a bus error. -/
theorem imagePass_of_write_none (hw : writePixels wr dst s.mem s.dstAddr.toNat (xs.map pixel) = none) :
    imagePass s ty src dst code rd wr pixel = raiseError .busError (writeFree
      (scramble s.platform s.draws s.mem s.dstAddr.toNat (dst * dimPixels s.srcDim)) s) := by
  simp only [imagePass, hd, hr, hw, if_true]
  rfl

/-- R158, R163: a completed pass. -/
theorem imagePass_of_write_some {m : Memory}
    (hw : writePixels wr dst s.mem s.dstAddr.toNat (xs.map pixel) = some m) :
    imagePass s ty src dst code rd wr pixel = reportOk (writeImage m code s) := by
  simp only [imagePass, hd, hr, hw, if_true]
  rfl

end Pass

/-! ### Updates that an operation does not see -/

/-- An update of the state that a scalar operation other than CFG does not see: it leaves VALID, ACT and LUT, and it
commutes with writing RESULT and with the reports. -/
structure Unseen (f : State → State) : Prop where
  valid : ∀ s, statusValid (f s).status = statusValid s.status
  act : ∀ s, (f s).act = s.act
  lut : ∀ s, (f s).lut = s.lut
  result : ∀ v s, setResult v (f s) = f (setResult v s)
  ok : ∀ s, reportOk (f s) = f (reportOk s)
  error : ∀ e s, raiseError e (f s) = f (raiseError e s)

/-- An update that CFG does not see: it leaves the staging registers and commutes with writing the configuration. -/
structure UnseenByCfg (f : State → State) : Prop where
  staging : ∀ s, (f s).cfgMinM = s.cfgMinM ∧ (f s).cfgMaxM = s.cfgMaxM ∧ (f s).cfgScale = s.cfgScale ∧
    (f s).cfgMode = s.cfgMode
  config : ∀ act lut valid eps s, writeConfig act lut valid eps (f s) = f (writeConfig act lut valid eps s)

/-- An update that an image pass does not see: it leaves memory, the platform, the draw counter and the descriptors, and
commutes with the writes of a pass. -/
structure UnseenByPass (f : State → State) : Prop where
  memory : ∀ s, (f s).mem = s.mem ∧ (f s).platform = s.platform ∧ (f s).draws = s.draws
  descriptors : ∀ s, (f s).srcAddr = s.srcAddr ∧ (f s).srcDim = s.srcDim ∧ (f s).srcFmt = s.srcFmt ∧
    (f s).dstAddr = s.dstAddr
  image : ∀ m code s, writeImage m code (f s) = f (writeImage m code s)
  free : ∀ m s, writeFree m (f s) = f (writeFree m s)

section Commute

variable {f : State → State} (hf : Unseen f)
include hf

/-- `withAct` commutes with an unseen update when the operation after it does. -/
theorem withAct_commutes (s : State) {k k' : Act → Host.Outcome State Fault Refusal}
    (hk : ∀ act, k' act = mapNext f (k act)) : withAct (f s) k' = mapNext f (withAct s k) := by
  unfold withAct
  rw [hf.valid, hf.act, hf.error]
  cases statusValid s.status with
  | false => rfl
  | true =>
    cases s.act with
    | none => rfl
    | some act => exact hk act

/-- `withLut` commutes with an unseen update when the operation after it does. -/
theorem withLut_commutes (s : State) {k k' : Lut → Host.Outcome State Fault Refusal}
    (hk : ∀ lut, k' lut = mapNext f (k lut)) : withLut (f s) k' = mapNext f (withLut s k) := by
  unfold withLut
  rw [hf.lut]
  cases s.lut with
  | none => rfl
  | some lut => exact hk lut

/-- A scalar result with its success report commutes with an unseen update. -/
theorem scalar_commutes (v : Word) (s : State) :
    (.next (reportOk (setResult v (f s))) : Host.Outcome State Fault Refusal) =
      mapNext f (.next (reportOk (setResult v s))) := by
  rw [hf.result, hf.ok]
  rfl

/-- VENC, VDEC and the four scalar operations that need a configuration commute with an unseen update. -/
theorem exec_scalar_commutes {i : Instr} (hc : i ≠ .cfg) (hm : usesMemory i = false) (s : State) :
    exec i (f s) = mapNext f (exec i s) := by
  cases i with
  | venc v =>
    by_cases hv : Config.levelMax < v.toNat
    · simp only [exec, execVenc, if_pos hv, hf.result, hf.error, mapNext]
    · simp only [exec, execVenc, if_neg hv, hf.result, hf.ok, mapNext]
  | vdec r g b => exact scalar_commutes hf _ s
  | cfg => exact absurd rfl hc
  | sfwd | sinv | pdec => exact withAct_commutes hf s fun _ => scalar_commutes hf _ s
  | penc => exact withAct_commutes hf s fun _ => withLut_commutes hf s fun _ => scalar_commutes hf _ s
  | ienc | idec => nomatch hm

/-- CFG commutes with an unseen update that it does not see either. -/
theorem exec_cfg_commutes (hg : UnseenByCfg f) (s : State) : exec .cfg (f s) = mapNext f (exec .cfg s) := by
  obtain ⟨hmin, hmax, hscale, hmode⟩ := hg.staging s
  have hderive : deriveConfig (f s).cfgMinM (f s).cfgMaxM (f s).cfgScale (modeInverse (f s).cfgMode) =
      deriveConfig s.cfgMinM s.cfgMaxM s.cfgScale (modeInverse s.cfgMode) := by rw [hmin, hmax, hscale, hmode]
  simp only [exec]
  cases hd : deriveConfig s.cfgMinM s.cfgMaxM s.cfgScale (modeInverse s.cfgMode) with
  | none => rw [execCfg_of_none hd, execCfg_of_none (hderive.trans hd), hg.config, hf.error]; rfl
  | some c => rw [execCfg_of_some hd, execCfg_of_some (hderive.trans hd), hg.config, hf.ok]; rfl

/-- An image pass commutes with an unseen update that it does not see either. -/
theorem imagePass_commutes (hg : UnseenByPass f) {α β : Type} (s : State) (ty : ElemType) (src dst : Nat) (code : Byte)
    (rd : Nat → Option α) (wr : Memory → Nat → β → Option Memory) (pixel : α → β) :
    imagePass (f s) ty src dst code rd wr pixel = f (imagePass s ty src dst code rd wr pixel) := by
  obtain ⟨hmem, hplatform, hdraws⟩ := hg.memory s
  obtain ⟨hsrcAddr, hsrcDim, hsrcFmt, hdstAddr⟩ := hg.descriptors s
  have hok : descriptorsOk (f s) ty src dst = descriptorsOk s ty src dst := by
    simp only [descriptorsOk, hsrcAddr, hsrcDim, hsrcFmt, hdstAddr]
  by_cases hd : descriptorsOk s ty src dst = true
  · have hd' := hok.trans hd
    have hread : readPixels rd src (f s).srcAddr.toNat (dimPixels (f s).srcDim) =
        readPixels rd src s.srcAddr.toNat (dimPixels s.srcDim) := by rw [hsrcAddr, hsrcDim]
    cases hr : readPixels rd src s.srcAddr.toNat (dimPixels s.srcDim) with
    | none => rw [imagePass_of_read_none hd hr, imagePass_of_read_none hd' (hread.trans hr), hf.error]
    | some xs =>
      have hr' := hread.trans hr
      have hwrite : writePixels wr dst (f s).mem (f s).dstAddr.toNat (xs.map pixel) =
          writePixels wr dst s.mem s.dstAddr.toNat (xs.map pixel) := by rw [hmem, hdstAddr]
      cases hw : writePixels wr dst s.mem s.dstAddr.toNat (xs.map pixel) with
      | none =>
        rw [imagePass_of_write_none hd hr hw, imagePass_of_write_none hd' hr' (hwrite.trans hw), hg.free, hf.error,
          hmem, hplatform, hdraws, hdstAddr, hsrcDim]
      | some m =>
        rw [imagePass_of_write_some hd hr hw, imagePass_of_write_some hd' hr' (hwrite.trans hw), hg.image, hf.ok]
  · rw [imagePass_refused _ hd, imagePass_refused _ (by rwa [hok]), hf.error]

/-- The image operations commute with such an update. -/
theorem exec_image_commutes (hg : UnseenByPass f) {i : Instr} (hm : usesMemory i = true) (s : State) :
    exec i (f s) = mapNext f (exec i s) := by
  obtain ⟨hmem, hplatform, -⟩ := hg.memory s
  cases i with
  | venc | vdec | cfg | sfwd | sinv | penc | pdec => nomatch hm
  | ienc =>
    refine withAct_commutes hf s fun _ => withLut_commutes hf s fun _ => ?_
    rw [hmem, hplatform, imagePass_commutes hf hg]
    rfl
  | idec =>
    refine withAct_commutes hf s fun _ => ?_
    rw [hmem, hplatform, imagePass_commutes hf hg]
    rfl

end Commute

/-! ### Sticky bits -/

/-- Two STATUS words with the same LAST and the same bits outside it are one word. -/
theorem status_ext {v w : Word} (hlast : statusLast v = statusLast w)
    (hbits : ∀ i, i < 32 → i < 16 ∨ 20 ≤ i → v.getLsbD i = w.getLsbD i) : v = w := by
  apply BitVec.eq_of_getLsbD_eq
  intro i hi
  by_cases hout : i < 16 ∨ 20 ≤ i
  · exact hbits i hi hout
  · have hbit := congrArg (·.getLsbD (i - 16)) hlast
    simpa [statusLast, BitVec.getLsbD_extractLsb', show i - 16 < 4 by omega, show 16 + (i - 16) = i by omega] using hbit

section Status

variable {w x : Word}

/-- A bit that is set in STATUS, or clear in `x`, is written as without `x`. -/
theorem setBit_or {i : Nat} {b : Bool} (hx : b = true ∨ x.getLsbD i = false) :
    setBit (w ||| x) i b = setBit w i b ||| x := by
  apply BitVec.eq_of_getLsbD_eq
  intro k hk
  rw [BitVec.getLsbD_or, setBit_getLsbD _ _ _ _ hk, setBit_getLsbD _ _ _ _ hk, BitVec.getLsbD_or]
  split
  case isTrue h =>
    obtain rfl | hx := hx
    · rfl
    · rw [h, hx, Bool.or_false]
  case isFalse => rfl

/-- The mask 0x000003F0 keeps bits 4 to 9 (R24). -/
theorem and_stickyMask_bit (bits : Word) {k : Nat} (hk : k < 32) (h : k < 4 ∨ 10 ≤ k) :
    (bits &&& 0x000003F0#32).getLsbD k = false := by
  interval_cases k <;> first | omega | simp

/-- LAST is written as without `x` when `x` has no bit there. -/
theorem setLast_or (hx : ∀ k, 16 ≤ k → k < 20 → x.getLsbD k = false) (c : Nat) :
    setLast (w ||| x) c = setLast w c ||| x := by
  refine status_ext ?last fun i hi hout => ?bits
  case last =>
    have hlast : statusLast (setLast w c ||| x) = statusLast (setLast w c) :=
      statusLast_of_bits fun i h16 h20 => by rw [BitVec.getLsbD_or, hx i h16 h20, Bool.or_false]
    rw [hlast, statusLast_setLast, statusLast_setLast]
  case bits =>
    rw [BitVec.getLsbD_or, setLast_getLsbD _ _ _ hi hout, setLast_getLsbD _ _ _ hi hout, BitVec.getLsbD_or]

end Status

/-- The sticky bits of `bits` set in STATUS, the rest of STATUS as it was. -/
def setSticky (bits : Word) (s : State) : State := { s with status := s.status ||| (bits &&& 0x000003F0#32) }

/-- Setting sticky bits commutes with a report. -/
theorem setLast_setSticky (bits w : Word) (c : Nat) :
    setLast (w ||| (bits &&& 0x000003F0#32)) c = setLast w c ||| (bits &&& 0x000003F0#32) :=
  setLast_or (fun _ _ _ => and_stickyMask_bit bits (by omega) (by omega)) c

/-- R192: no operation reads a sticky bit, and none clears one. -/
theorem unseen_setSticky (bits : Word) : Unseen (setSticky bits) where
  valid s := by
    rw [statusValid, setSticky, BitVec.getLsbD_or, and_stickyMask_bit bits (by omega) (by omega), Bool.or_false]
    rfl
  act _ := rfl
  lut _ := rfl
  result _ _ := rfl
  ok s := congrArg (fun w => { s with status := w }) (setLast_setSticky bits s.status 0)
  error e s := congrArg (fun w => { s with status := w })
    ((congrArg (setLast · _) (setBit_or (.inl rfl))).trans (setLast_setSticky bits _ _))

theorem unseenByCfg_setSticky (bits : Word) : UnseenByCfg (setSticky bits) where
  staging _ := ⟨rfl, rfl, rfl, rfl⟩
  config act lut valid eps s := by
    have hclear {k : Nat} (hk : k < 4) := and_stickyMask_bit bits (k := k) (by omega) (.inl hk)
    simp only [writeConfig, setSticky, setEpsSub, setValid, setBit_or (.inr (hclear (k := 0) (by omega))),
      setBit_or (.inr (hclear (k := 1) (by omega)))]

theorem unseenByPass_setSticky (bits : Word) : UnseenByPass (setSticky bits) where
  memory _ := ⟨rfl, rfl, rfl⟩
  descriptors _ := ⟨rfl, rfl, rfl, rfl⟩
  image _ _ _ := rfl
  free _ _ := rfl

/-! ### The statements -/

/-- Settles O20: sticky bits are unseen by the scalar operations, by CFG and by an image pass. -/
theorem stickyBitsNeverInfluenceOperations : Obligations.StickyBitsNeverInfluenceOperations := by
  intro i s bits
  have hf := unseen_setSticky bits
  by_cases hc : i = .cfg
  · subst hc
    exact exec_cfg_commutes hf (unseenByCfg_setSticky bits) s
  · cases hm : usesMemory i with
    | false => exact exec_scalar_commutes hf hc hm s
    | true => exact exec_image_commutes hf (unseenByPass_setSticky bits) hm s

/-- Settles O51: other memory contents are unseen by the scalar operations and by CFG. -/
theorem scalarOperationsIgnoreMemory : Obligations.ScalarOperationsIgnoreMemory := by
  intro i s m hm
  have hf : Unseen fun s => { s with mem := m } :=
    ⟨fun _ => rfl, fun _ => rfl, fun _ => rfl, fun _ _ => rfl, fun _ => rfl, fun _ _ => rfl⟩
  by_cases hc : i = .cfg
  · subst hc
    exact exec_cfg_commutes hf ⟨fun _ => ⟨rfl, rfl, rfl, rfl⟩, fun _ _ _ _ _ => rfl⟩ s
  · exact exec_scalar_commutes hf hc hm s

/-- Settles O52: other staging values are unseen by every operation but CFG. -/
theorem stagingReachesOnlyCfg : Obligations.StagingReachesOnlyCfg := by
  intro i s mn mx sc md hc
  have hf : Unseen fun s => { s with cfgMinM := mn, cfgMaxM := mx, cfgScale := sc, cfgMode := md } :=
    ⟨fun _ => rfl, fun _ => rfl, fun _ => rfl, fun _ _ => rfl, fun _ => rfl, fun _ _ => rfl⟩
  cases hm : usesMemory i with
  | false => exact exec_scalar_commutes hf hc hm s
  | true =>
    exact exec_image_commutes hf ⟨fun _ => ⟨rfl, rfl, rfl⟩, fun _ => ⟨rfl, rfl, rfl, rfl⟩, fun _ _ _ => rfl,
      fun _ _ => rfl⟩ hm s

end Sys2Proof.Machine
end

section
/-! Memory (spec/20_memory.md): canonical memories with equal contents are equal, so the order of writes does not show
(R71); the register window is never admitted (R61); and the two bus errors of an image pass (R64). -/

namespace Sys2Proof.Machine

/-! ### Canonical memory is its contents -/

theorem Memory.read_head (k : Nat) (v : Byte) (m : Memory) : Memory.read ((k, v) :: m) k = v := if_pos rfl

theorem Memory.read_tail {k a : Nat} (h : k ≠ a) (v : Byte) (m : Memory) :
    Memory.read ((k, v) :: m) a = Memory.read m a := if_neg h

/-- The first listed address of a canonical memory does not read as an unlisted one, so no canonical memory with the same
contents starts above it. -/
theorem Memory.first_le {lo k k' : Nat} {v v' : Byte} {m m' : Memory} (h : Memory.wfFrom lo ((k, v) :: m) = true)
    (h' : Memory.wfFrom lo ((k', v') :: m') = true)
    (hread : ∀ a, Memory.read ((k, v) :: m) a = Memory.read ((k', v') :: m') a) : k' ≤ k := by
  obtain ⟨-, -, hv, -⟩ := Memory.wfFrom_cons.1 h
  obtain ⟨-, hlt', hv', htail'⟩ := Memory.wfFrom_cons.1 h'
  by_contra hlt
  have hbelow : Memory.read ((k', v') :: m') k = Memory.unlisted :=
    Memory.read_below (lo := k') (Memory.wfFrom_cons.2 ⟨le_rfl, hlt', hv', htail'⟩) (by omega)
  exact hv ((Memory.read_head k v m).symm.trans ((hread k).trans hbelow))

/-- Canonical memories from one address on with equal contents are equal. -/
theorem Memory.ext_from : ∀ {lo : Nat} {m m' : Memory}, Memory.wfFrom lo m = true → Memory.wfFrom lo m' = true →
    (∀ a, Memory.read m a = Memory.read m' a) → m = m'
  | _, [], [], _, _, _ => rfl
  | _, [], (k, v) :: m', _, h', hread => by
    obtain ⟨-, -, hv, -⟩ := Memory.wfFrom_cons.1 h'
    exact absurd ((hread k).trans (Memory.read_head k v m')).symm hv
  | _, (k, v) :: m, [], h, _, hread => by
    obtain ⟨-, -, hv, -⟩ := Memory.wfFrom_cons.1 h
    exact absurd ((Memory.read_head k v m).symm.trans (hread k)) hv
  | lo, (k, v) :: m, (k', v') :: m', h, h', hread => by
    obtain rfl : k = k' := le_antisymm (Memory.first_le h' h fun a => (hread a).symm) (Memory.first_le h h' hread)
    obtain ⟨-, -, -, htail⟩ := Memory.wfFrom_cons.1 h
    obtain ⟨-, -, -, htail'⟩ := Memory.wfFrom_cons.1 h'
    have hv : v = v' := by simpa only [Memory.read_head] using hread k
    have hm : m = m' := Memory.ext_from htail htail' fun a => by
      by_cases ha : a < k + 1
      · rw [Memory.read_below htail ha, Memory.read_below htail' ha]
      · have hne : k ≠ a := by omega
        simpa only [Memory.read_tail hne] using hread a
    rw [hv, hm]

theorem Memory.ext {m m' : Memory} (h : Memory.wf m = true) (h' : Memory.wf m' = true)
    (hread : ∀ a, Memory.read m a = Memory.read m' a) : m = m' :=
  Memory.ext_from h h' hread

/-! ### The order of writes -/

/-- Two writes to distinct addresses commute. -/
theorem Memory.write_comm {m : Memory} (hm : Memory.wf m = true) {a b : Nat} (ha : a < Config.addrSpace)
    (hb : b < Config.addrSpace) (hne : a ≠ b) (x y : Byte) :
    Memory.write (Memory.write m a x) b y = Memory.write (Memory.write m b y) a x := by
  have hma := Memory.wf_write x hm ha
  have hmb := Memory.wf_write y hm hb
  refine Memory.ext (Memory.wf_write y hma hb) (Memory.wf_write x hmb ha) fun c => ?_
  rw [Memory.read_write hma, Memory.read_write hm, Memory.read_write hmb, Memory.read_write hm]
  by_cases hcb : c = b
  · rw [if_pos hcb, if_neg (hcb ▸ hne.symm), if_pos hcb]
  · rw [if_neg hcb, if_neg hcb]

/-- A list of writes, in its order. -/
def writeAll (m : Memory) (xs : List (Nat × Byte)) : Memory := xs.foldl (fun m x => Memory.write m x.1 x.2) m

/-- R71: writes to distinct addresses leave the same memory in every order. -/
theorem writeAll_perm {xs ys : List (Nat × Byte)} (hp : xs.Perm ys) : ∀ {m : Memory}, Memory.wf m = true →
    (∀ x ∈ xs, x.1 < Config.addrSpace) → (xs.map Prod.fst).Nodup → writeAll m xs = writeAll m ys := by
  induction hp with
  | nil => intros; rfl
  | cons x _ ih =>
    intro m hm hlt hnd
    obtain ⟨hx, hxs⟩ := List.forall_mem_cons.1 hlt
    exact ih (Memory.wf_write x.2 hm hx) hxs (List.nodup_cons.1 hnd).2
  | swap x y l =>
    intro m hm hlt hnd
    obtain ⟨hy, hxl⟩ := List.forall_mem_cons.1 hlt
    obtain ⟨hx, -⟩ := List.forall_mem_cons.1 hxl
    have hne : y.1 ≠ x.1 := by
      have hmem := (List.nodup_cons.1 hnd).1
      exact fun e => hmem (e ▸ List.mem_cons_self)
    exact congrArg (writeAll · l) (Memory.write_comm hm hy hx hne y.2 x.2)
  | trans hxy _ ih ih' =>
    intro m hm hlt hnd
    have hlt' := fun z hz => hlt z (hxy.mem_iff.2 hz)
    exact (ih hm hlt hnd).trans (ih' hm hlt' ((hxy.map Prod.fst).nodup_iff.1 hnd))

/-! ### Bus errors -/

/-- The read-phase bus error: the report and nothing else (R64, R186). -/
theorem busError_of_read {i : Instr} {s : State} (h : exec i s = .next (raiseError .busError s)) :
    ∃ t, exec i s = .next t ∧ t = { s with status := t.status } ∧ ErrReport 6 s.status t.status :=
  ⟨_, h, rfl, raiseError_errReport .busError s⟩

/-- The write-phase bus error of a pass to `n` bytes from DST_ADDR: an admitted byte of them takes its free value, every
other byte of memory is as before. -/
theorem busError_of_write {i : Instr} {s : State} {n : Nat} (hm : Memory.wf s.mem = true)
    (h : exec i s = .next (raiseError .busError
      (writeFree (scramble s.platform s.draws s.mem s.dstAddr.toNat n) s))) :
    ∃ t, exec i s = .next t ∧ t = { s with mem := t.mem, draws := s.draws + 1, status := t.status } ∧
      ErrReport 6 s.status t.status ∧ Memory.wf t.mem = true ∧
      ∀ a, Memory.read t.mem a =
        if s.dstAddr.toNat ≤ a ∧ a < s.dstAddr.toNat + n ∧ memAdmit s.platform a .write = true
        then Config.freeByte s.draws a else Memory.read s.mem a :=
  ⟨_, h, rfl, raiseError_errReport .busError _, wf_scramble _ _ hm, fun a => read_scramble _ _ a hm⟩

/-! ### The statements -/

/-- Settles O47: `memAdmit` asks for the address space and excludes the window before it looks at the platform. -/
theorem registerWindowIsNeverAdmitted : Obligations.RegisterWindowIsNeverAdmitted := by
  rintro p a k (⟨hlo, hhi⟩ | hout)
  · have hwindow : inWindow p a = true := by simp [inWindow, hlo, Config.windowBytes, hhi]
    simp [memAdmit, hwindow]
  · have hspace : ¬ a < Config.addrSpace := Nat.not_lt.2 hout
    simp [memAdmit, hspace]

/-- Settles O48: by induction along both lists, whose first addresses agree. -/
theorem canonicalMemoryIsItsContents : Obligations.CanonicalMemoryIsItsContents :=
  fun _ _ => Memory.ext

/-- Settles O49: by induction on the permutation, a swap being two writes that commute. -/
theorem writeOrderIsUnobservable : Obligations.WriteOrderIsUnobservable :=
  fun _ _ _ hm hlt hnd hp => writeAll_perm hp hm hlt hnd

/-- Settles O43: the pass meets the error in its read phase before any write, or in its write phase with the source
read. -/
theorem busErrorsFollowTheirPhase : Obligations.BusErrorsFollowTheirPhase := by
  intro s x hx hI hv hready
  obtain ⟨act, ha⟩ := hI.exists_act hv
  obtain rfl | rfl := List.mem_pair.1 hx
  case inl =>
    have hd := (descriptorsOk_ienc s).2 hready
    have hexec := exec_ienc_valid hI ha
    refine ⟨fun hsrc => busError_of_read ?_, fun hsrc hdst => busError_of_write hI.mem_wf ?_⟩
    · exact hexec.trans (congrArg _ (imagePass_readError _ (by decide) (readSample_reader _ _) hd hsrc))
    · exact hexec.trans (congrArg _
        (imagePass_writeError _ hI.mem_wf (readSample_reader _ _) (writeTriple_writer _) hd hsrc hdst))
  case inr =>
    have hd := (descriptorsOk_idec s).2 hready
    have hexec := exec_idec_valid hv ha
    refine ⟨fun hsrc => busError_of_read ?_, fun hsrc hdst => busError_of_write hI.mem_wf ?_⟩
    · exact hexec.trans (congrArg _ (imagePass_readError _ (by decide) (readTriple_reader _ _) hd hsrc))
    · exact hexec.trans (congrArg _
        (imagePass_writeError _ hI.mem_wf (readTriple_reader _ _) (writeSample_writer _) hd hsrc hdst))

end Sys2Proof.Machine
end

section
/-! The range of the decoder (spec/40_value_codec.md R106): the levels of each branch, and how many triples are dark. -/

namespace Sys2Proof.Machine

/-! ### The levels of each branch -/

section Ranges

variable (t : Triple) (h : 128 < t.r.toNat + t.g.toNat + t.b.toNat)
include h

theorem vDec_red_green_range (hg : t.g.toNat ≤ t.r.toNat) (hb : t.b.toNat ≤ t.r.toNat) (hbg : t.b.toNat ≤ t.g.toNat) :
    1 ≤ vDec t ∧ vDec t ≤ 256 := by
  have hlt := t.g.isLt
  have hval := vDec_red_green t h hg hb hbg
  omega

theorem vDec_red_blue_range (hg : t.g.toNat ≤ t.r.toNat) (hb : t.b.toNat ≤ t.r.toNat) (hgb : t.g.toNat < t.b.toNat) :
    1276 ≤ vDec t ∧ vDec t ≤ 1530 := by
  have hlt := t.b.isLt
  have hval := vDec_red_blue t h hg hb hgb
  omega

theorem vDec_green_range (hr : t.r.toNat < t.g.toNat) (hb : t.b.toNat ≤ t.g.toNat) :
    257 ≤ vDec t ∧ vDec t ≤ 766 := by
  have hlt := t.g.isLt
  have hval := vDec_green t h hr hb
  omega

theorem vDec_blue_range (hr : t.r.toNat < t.b.toNat) (hg : t.g.toNat < t.b.toNat) :
    767 ≤ vDec t ∧ vDec t ≤ 1275 := by
  have hlt := t.b.isLt
  have hval := vDec_blue t h hr hg
  omega

/-- Every branch past the sum test gives a level above 0. -/
theorem vDec_pos : 1 ≤ vDec t := by
  by_cases hr : t.g.toNat ≤ t.r.toNat ∧ t.b.toNat ≤ t.r.toNat
  · by_cases hbg : t.b.toNat ≤ t.g.toNat
    · exact (vDec_red_green_range t h hr.1 hr.2 hbg).1
    · have := vDec_red_blue_range t h hr.1 hr.2 (by omega)
      omega
  · by_cases hbg : t.b.toNat ≤ t.g.toNat
    · have := vDec_green_range t h (by omega) hbg
      omega
    · have := vDec_blue_range t h (by omega) (by omega)
      omega

end Ranges

/-- R106: level 0 is the level of the dark triples. -/
theorem vDec_eq_zero_iff (t : Triple) : vDec t = 0 ↔ t.r.toNat + t.g.toNat + t.b.toNat ≤ 128 := by
  refine ⟨fun h0 => ?_, vDec_dark t⟩
  by_contra hsum
  have hpos := vDec_pos t (by omega)
  omega

/-! ### Counting -/

/-- The hockey-stick identity, the sum running down from `n`: terms past `n` are 0. -/
theorem sum_choose_sub (k : Nat) : ∀ {n N : Nat}, n ≤ N →
    ∑ i ∈ Finset.range N, (n - i + k).choose (k + 1) = (n + k + 1).choose (k + 2)
  | 0, N, _ => by simp
  | n + 1, 0, h => absurd h (Nat.not_succ_le_zero n)
  | n + 1, N + 1, h => by
    have ih := sum_choose_sub k (n := n) (N := N) (by omega)
    rw [Finset.sum_range_succ', Nat.sub_zero]
    simp only [Nat.add_sub_add_right]
    rw [ih, Nat.add_comm, show n + 1 + k = n + k + 1 by omega, ← Nat.choose_succ_succ]

/-- Counting pairs, one first component at a time. -/
theorem card_filter_pairs {α β : Type} [Fintype α] [Fintype β] (P : α → β → Prop) [∀ a b, Decidable (P a b)] :
    (Finset.univ.filter fun c : α × β => P c.1 c.2).card = ∑ a, (Finset.univ.filter fun b => P a b).card := by
  simp only [Finset.card_filter, Fintype.sum_prod_type]

/-- How many pairs of 256 values have a sum below `n`: the triangular number of `n`. -/
theorem card_pair_sum_lt {n : Nat} (h : n ≤ 256) :
    (Finset.univ.filter fun c : Fin 256 × Fin 256 => c.1.val + c.2.val < n).card = (n + 1).choose 2 := by
  have hrow (a : Fin 256) : (Finset.univ.filter fun b : Fin 256 => a.val + b.val < n).card = (n - a.val).choose 1 := by
    simp only [← Nat.lt_sub_iff_add_lt', Fin.card_filter_val_lt, Nat.choose_one_right]
    omega
  calc _ = ∑ a : Fin 256, (n - a.val).choose 1 := by
        rw [card_filter_pairs fun a b : Fin 256 => a.val + b.val < n]
        exact Finset.sum_congr rfl fun a _ => hrow a
    _ = ∑ i ∈ Finset.range 256, (n - i).choose 1 := Fin.sum_univ_eq_sum_range (fun i => (n - i).choose 1) 256
    _ = (n + 1).choose 2 := sum_choose_sub 0 h

/-- How many triples of 256 values have a sum below `n`: the tetrahedral number of `n`. -/
theorem card_triple_sum_lt {n : Nat} (h : n ≤ 256) :
    (Finset.univ.filter fun c : Fin 256 × Fin 256 × Fin 256 => c.1.val + c.2.1.val + c.2.2.val < n).card =
      (n + 2).choose 3 := by
  have hslice (a : Fin 256) : (Finset.univ.filter fun c : Fin 256 × Fin 256 => a.val + c.1.val + c.2.val < n).card =
      (n - a.val + 1).choose 2 := by
    have hmove (c : Fin 256 × Fin 256) : a.val + c.1.val + c.2.val < n ↔ c.1.val + c.2.val < n - a.val := by omega
    simp only [hmove]
    exact card_pair_sum_lt (by omega)
  calc _ = ∑ a : Fin 256, (n - a.val + 1).choose 2 := by
        rw [card_filter_pairs fun (a : Fin 256) (c : Fin 256 × Fin 256) => a.val + c.1.val + c.2.val < n]
        exact Finset.sum_congr rfl fun a _ => hslice a
    _ = ∑ i ∈ Finset.range 256, (n - i + 1).choose 2 := Fin.sum_univ_eq_sum_range (fun i => (n - i + 1).choose 2) 256
    _ = (n + 2).choose 3 := sum_choose_sub 1 h

/-! ### The statements -/

/-- Settles O25: each branch by its formula, a channel being at most 255. -/
theorem decodedLevelsLieInTheirRanges : Obligations.DecodedLevelsLieInTheirRanges :=
  fun t => ⟨vDec_eq_zero_iff t, vDec_le t, fun h =>
    ⟨vDec_red_green_range t h, vDec_red_blue_range t h, vDec_green_range t h, vDec_blue_range t h⟩⟩

/-- Settles O26: the dark triples are those of sum below 129, and C(131, 3) = 366145. -/
theorem darkTriplesAreCounted : Obligations.DarkTriplesAreCounted := by
  unfold Obligations.DarkTriplesAreCounted
  simp only [vDec_eq_zero_iff, BitVec.toNat_ofFin, ← Nat.lt_succ_iff]
  calc _ = (129 + 2).choose 3 := card_triple_sum_lt (n := 129) (by omega)
    _ = 366145 := by norm_num [Nat.choose]

end Sys2Proof.Machine
end

section
/-! The epsilon configuration (spec/41_range_scaler.md R139): an inverse-mode configuration whose minimum stands for EPS,
so its minimal disparity is 10^9 and nearly the whole range lies beyond every sample. -/

namespace Sys2Proof.Machine

/-- The configuration of R139 with the upper bound `u` in the disparity domain. -/
def epsAct (u : Rat) : Act := ⟨10 ^ 9, u, u - 10 ^ 9, true⟩

/-- A depth below one half rounds to 0. -/
theorem isRounded_zero {q : Rat} (h0 : 0 ≤ q) (h : q < 1 / 2) : IsRounded q 0 := by
  constructor <;> norm_num <;> linarith

section Eps

variable {u : Rat} (h0 : 0 < u) (h1 : u < 10 ^ 9)
include h0 h1

theorem epsAct_sound : (epsAct u).Sound :=
  sound_of_bounds h1.ne' (by norm_num) h0.le fun _ => ⟨by norm_num, h0⟩

/-- The disparity of a non-zero sample is at most 1, so it lies within 10^-9 of the end of the range. -/
theorem position_epsAct {d : Sample} (hd : 1 ≤ d.toNat) : 1 - 1 / 10 ^ 9 ≤ samplePosition (epsAct u) d := by
  have hcoord : sampleCoord (epsAct u) d ≤ 1 := by
    have hd' : (1 : Rat) ≤ d.toNat := by exact_mod_cast hd
    exact (div_le_one (by linarith)).2 hd'
  have hpos : samplePosition (epsAct u) d = (10 ^ 9 - sampleCoord (epsAct u) d) / (10 ^ 9 - u) := by
    rw [← neg_div_neg_eq, neg_sub, neg_sub]
    rfl
  rw [hpos, le_div_iff₀ (by linarith)]
  linarith

/-- R139: the level of every non-zero sample rounds to 1530. -/
theorem scaleFwd_epsAct {d : Sample} (hd : 1 ≤ d.toNat) : scaleFwd (epsAct u) d = 1530 := by
  have hclamp : 1 - 1 / 10 ^ 9 ≤ clamp01 (samplePosition (epsAct u) d) :=
    le_min (le_max_of_le_left (position_epsAct h0 h1 hd)) (by norm_num)
  have hle := clamp01_le_one (samplePosition (epsAct u) d)
  refine (scaleFwd_isRounded (by omega)).unique ?_
  constructor
  · norm_num at hclamp ⊢
    linarith
  · norm_num
    linarith

/-- The disparity of a level up to 1529 keeps at least one part in 1530 of 10^9, so its depth is below one half. -/
theorem depthOfLevel_epsAct {l : Nat} (hl : l ≤ 1529) : depthOfLevel (epsAct u) l < 1 / 2 := by
  have hl' : (l : Rat) ≤ 1529 := by exact_mod_cast hl
  have hdisp : 2 < levelDepth (epsAct u) l := by
    rw [levelDepth_convex (epsAct_sound h0 h1)]
    have hmax : 0 ≤ u * ((l : Rat) / 1530) := by positivity
    show (2 : Rat) < 10 ^ 9 * (1 - (l : Rat) / 1530) + u * ((l : Rat) / 1530)
    linarith
  rw [depthOfLevel_eq]
  exact one_div_lt_one_div_of_lt (by norm_num) hdisp

/-- R139: every level in 1..1529 decodes to 0. -/
theorem scaleInv_epsAct {l : Nat} (hl1 : 1 ≤ l) (hl : l ≤ 1529) : scaleInv (epsAct u) l = 0#16 := by
  have hA := epsAct_sound h0 h1
  obtain ⟨n, hn, hres⟩ := (scaleInv_inverseSample hA l).2 hl1 (by omega)
  have hzero : n = 0 :=
    hn.unique (isRounded_zero (depthOfLevel_nonneg hA (by omega)) (depthOfLevel_epsAct h0 h1 hl))
  apply BitVec.eq_of_toNat_eq
  rw [hres, hzero]
  rfl

/-- R139: level 1530 decodes to the upper bound. -/
theorem scaleInv_epsAct_top {n : Nat} (hn : IsRounded (1 / u) n) :
    (scaleInv (epsAct u) 1530).toNat = min n 65535 := by
  obtain ⟨k, hk, hres⟩ := (scaleInv_inverseSample (epsAct_sound h0 h1) 1530).2 (by omega) le_rfl
  have hdepth : depthOfLevel (epsAct u) 1530 = 1 / u := by
    rw [depthOfLevel_eq, levelDepth_convex (epsAct_sound h0 h1)]
    norm_num [epsAct]
  rw [hdepth] at hk
  rw [hres, hk.unique hn]

end Eps

/-! ### The statement -/

/-- Settles O35: the three parts of R139 on the epsilon configuration. -/
theorem epsilonConfigurationDegenerates : Obligations.EpsilonConfigurationDegenerates :=
  fun _ h0 h1 => ⟨fun _ => scaleFwd_epsAct h0 h1, fun _ => scaleInv_epsAct h0 h1, fun _ => scaleInv_epsAct_top h0 h1⟩

end Sys2Proof.Machine
end
